-- ==== Sys2Proof/Word.lean ====
section
/-! DEFINITION. The widths of the block: one bit, one byte, one command word. -/

namespace Sys2Proof

/-- R9: bits and booleans are the same thing; `1` is true and `0` is false. -/
abbrev Bit := Bool

/-- R6: the byte width is fixed at 8 bits. -/
abbrev Byte := BitVec 8

/-- R63: a command is one 3-bit word `cmd[2:0]`. -/
abbrev Cmd := BitVec 3

end Sys2Proof
end

