-- ==== Sys2Proof/Config.lean ====
section
/-! DEFINITION. What is fixed when the block is built, and the one free value of the model. -/

namespace Sys2Proof

/-- R5, R29, U1: the one parameter of the block, the capacity of the bit queue in bits. Every natural number is
admitted, values below 8 and 0 included; no command changes it. -/
structure Config where
  maxBits : Nat
deriving DecidableEq, Repr

/-- R5: the reference configuration, `MAX_BITS = 1024`. DESIGN CHOICE (log entry 1): the value State.reset carries. -/
def Config.reference : Config := { maxBits := 1024 }

/-- R96, U2: the consumer's accept answer is a draw under no law. The answer numbered `n`, where the environment's list
of answers has ended. It has no body: nothing can be proved of its value. DESIGN CHOICE, safe (log entry 3). -/
opaque Config.freeAnswer : Nat → Bit

end Sys2Proof
end

