-- ==== Sys2Proof/Syntax.lean ====
section
/-! DEFINITION. The commands of the block (R62, R64), its "instructions". -/

namespace Sys2Proof

/-- R62, R64: one constructor for each row of the opcode table. DRAIN is internal and no command (R62). -/
inductive Instr where
  /-- NOP, `000`: the idle word of the command port (R84). -/
  | nop
  /-- INGEST b, `01b`: append one bit, then drain if the Reading flag is 1 (R80). -/
  | ingest (b : Bit)
  /-- REQMORE, `100`: the consumer's pull (R90). -/
  | reqmore
  /-- TERM, `110`: the termination event (R120). -/
  | term
deriving DecidableEq, Repr

end Sys2Proof
end

