-- ==== Sys2Proof/WellFormed.lean ====
section
/-! DEFINITION. The fields of a command word and the check R63 puts on them. -/

namespace Sys2Proof

/-- R63: the format CMD3. `op = cmd[2:1]` selects the operation, `b = cmd[0]` is the data bit. -/
structure Cmd3 where
  op : BitVec 2
  b : BitVec 1
deriving DecidableEq, Repr

/-- R63: `b` is the data bit for INGEST (`op = 01`). It must be 0 for every other operation. -/
def Cmd3.wellFormed (f : Cmd3) : Bool :=
  f.op == 0b01#2 || f.b == 0b0#1

/-- R64: the fields of each command's word. -/
def Instr.fields : Instr → Cmd3
  | .nop => { op := 0b00#2, b := 0b0#1 }
  | .ingest b => { op := 0b01#2, b := BitVec.ofBool b }
  | .reqmore => { op := 0b10#2, b := 0b0#1 }
  | .term => { op := 0b11#2, b := 0b0#1 }

/-- A command is well formed when its word's fields are (R63). -/
def Instr.wellFormed (i : Instr) : Bool :=
  i.fields.wellFormed

end Sys2Proof
end

