-- ==== Sys2Proof/Decode.lean ====
section
/-! DEFINITION. The decoder of command words (R63 to R66), and after it the encoder. -/

namespace Sys2Proof

/-- R66: why a word is no command. -/
inductive DecodeReject where
  /-- R66, R144: the word is reserved. -/
  | reservedCommand (cmd : Cmd)
deriving DecidableEq, Repr

/-- R64: `word & mask == match`. -/
def Cmd.matches (word mask pattern : Cmd) : Bool :=
  word &&& mask == pattern

/-- R65: the operand of INGEST is `cmd[0]`, used as is. -/
def Cmd.dataBit (word : Cmd) : Bit :=
  word.getLsbD 0

/-- R63: the fields `op = cmd[2:1]` and `b = cmd[0]` of a word. -/
def Cmd.fields (word : Cmd) : Cmd3 :=
  { op := word.extractLsb' 1 2, b := word.extractLsb' 0 1 }

/-- R64, R66: the opcode map by match and mask. Every 3-bit word is one command or is reserved, so no length decoding
is needed (R63). -/
def decode (word : Cmd) : Except DecodeReject Instr :=
  if Cmd.matches word 0b111#3 0b000#3 then .ok .nop
  else if Cmd.matches word 0b110#3 0b010#3 then .ok (.ingest (Cmd.dataBit word))
  else if Cmd.matches word 0b111#3 0b100#3 then .ok .reqmore
  else if Cmd.matches word 0b111#3 0b110#3 then .ok .term
  else .error (.reservedCommand word)

/-- R63: the word with the fields `f`, `op` above `b`. -/
def Cmd3.word (f : Cmd3) : Cmd :=
  f.op ++ f.b

/-- R63, R64: the word of a command. -/
def encode (i : Instr) : Cmd :=
  i.fields.word

/-- The three wires of `cmd` (R61), carrying bits 2 to 0 of `w`. DESIGN CHOICE (log entry 11): there is no wire for a
higher bit. -/
def Cmd.ofTableWord (w : Nat) : Cmd :=
  BitVec.ofNat 3 w

/-- The command the decoder reads from an opcode-table word. All words have one length (R63), so `nbits` plays no part. -/
def decodeTableWord (_nbits w : Nat) : Option Instr :=
  match decode (Cmd.ofTableWord w) with
  | .ok i => some i
  | .error _ => none

end Sys2Proof
end

