-- ==== Sys2Proof/Machine/State.lean ====
section
/-! DEFINITION. The state of the block (R20), what surrounds it (R16, R61), the reasons a step stops, and reset (R32). -/

namespace Sys2Proof.Machine

/-- R61, R67: what the environment puts on the block's input pins for one transaction. -/
structure PortIn where
  /-- `rst`, active high (R162). -/
  rst : Bit
  /-- `cmd_valid`: a command word is presented on `cmd`. -/
  cmdValid : Bit
  /-- `cmd[2:0]`. -/
  cmd : Cmd
deriving DecidableEq, Repr

/-- Why the machine stops with a fault. -/
inductive Fault where
  /-- Raised by `State.fetch` and by `Cycle.clock` in a state with `|Q| > MAX_BITS` (R143). Safe: the rules cannot reach
  such a state, and no run goes on from it. -/
  | capacityInvariant
deriving DecidableEq, Repr

/-- Why a command has no meaning. -/
inductive Refusal where
  /-- Raised by an arm of `exec` whose command has no meaning yet (no arm is left so). Safe. -/
  | notModelled (mnemonic : String)
  /-- Raised by `State.fetch` and by `Cycle.clock` on the reserved words `001`, `101`, `111` (R66, R144). Safe: a refused
  run proves nothing (D4). -/
  | reservedCommand (cmd : Cmd)
deriving DecidableEq, Repr

/-- The block (`q`, `reading`, `halted`: R20, nothing else is architectural state), its configuration (R29), and its
environment as plain data: what is presented on the input pins, what the consumer answers, what it has been given. The
last five fields are inputs and outputs of the step by R16 and R20, not state of the block (log entries 1 to 4). -/
structure State where
  /-- R23: the bit queue `Q`, oldest bit first. -/
  q : List Bit
  /-- R22: the Reading flag. -/
  reading : Bit
  /-- R24: set by TERM, cleared by reset. -/
  halted : Bit
  /-- R5: the configuration the block was built with. -/
  cfg : Config
  /-- R21, U3: what the environment presents, transaction by transaction; after the list's end, nothing. -/
  inputs : List PortIn
  /-- R16, R96: the consumer's answers to the bytes to come; after the list's end, free values. -/
  answers : List Bit
  /-- The MODEL's own field: how many answers have been read, the index of the next free answer. -/
  answersRead : Nat
  /-- R16: the bytes handed to the consumer, oldest first. -/
  emitted : List Byte
deriving DecidableEq, Repr

/-- R32, R160: the block right after reset, built with the configuration `c`: `Q` empty, `reading` 0, `halted` 0. Nothing
has been presented, answered or emitted (log entries 2 to 4). -/
def State.resetWith (c : Config) : State :=
  { q := [], reading := false, halted := false, cfg := c, inputs := [], answers := [], answersRead := 0, emitted := [] }

/-- R32, R160: the machine right after reset, in the reference configuration (R5, log entry 1). -/
def State.reset : State :=
  State.resetWith Config.reference

end Sys2Proof.Machine
end

