-- ==== Sys2Proof/Machine/Operands.lean ====
section
/-! DEFINITION. The two widths the block moves (R45): one bit in, one byte out, and the order of bits in a byte. -/

namespace Sys2Proof.Machine

/-- R12, R42, R43: `pack(B) = sum over i in 0..7 of B[i] * 2^(7-i)`; the oldest bit `B[0]` is bit 7, the newest is bit 0.
The spec defines it on exactly 8 bits; a missing bit is read as 0 here, which no command can show (log entry 16). -/
def pack (B : List Bit) : Byte :=
  BitVec.ofNat 8 ((List.range 8).map fun i => (B.getD i false).toNat * 2 ^ (7 - i)).sum

/-- R70 and 95_test_vectors.md: `bits(v)`, the 8 bits of `v`, most-significant first. -/
def bits (v : Byte) : List Bit :=
  (List.range 8).map fun i => v.getLsbD (7 - i)

end Sys2Proof.Machine
end

