-- ==== Sys2Proof/Machine/Flags.lean ====
section
/-! DEFINITION. The derived conditions (R25, R100) and the status outputs (R28). None is stored. -/

namespace Sys2Proof.Machine

/-- R25: `saturated` is the condition `|Q| >= MAX_BITS`. -/
def State.saturated (s : State) : Bool :=
  decide (s.q.length ≥ s.cfg.maxBits)

/-- R100: Idle, `reading = 0` or `|Q| < 8`. -/
def State.idle (s : State) : Bool :=
  !s.reading || decide (s.q.length < 8)

/-- The number of binary digits of `n`, for any `fuel ≥ n`; 0 has none. -/
def binaryDigits : (fuel n : Nat) → Nat
  | 0, _ => 0
  | fuel + 1, n => if n = 0 then 0 else binaryDigits fuel (n / 2) + 1

/-- R7: `CW`, the number of bits needed to write `MAX_BITS` in binary, at least 1. -/
def countWidth (maxBits : Nat) : Nat :=
  max 1 (binaryDigits maxBits maxBits)

/-- R28: `st_reading`. -/
def State.stReading (s : State) : Bit := s.reading

/-- R28: `st_saturated`. -/
def State.stSaturated (s : State) : Bit := s.saturated

/-- R28: `st_halted`. -/
def State.stHalted (s : State) : Bit := s.halted

/-- R28: `st_count[CW-1:0] = zext_CW(|Q|)`. R11 uses `zext_N(x)` only where `x < 2^N`, which holds for every queue within
the capacity (R7). DESIGN CHOICE (log entry 18): for a longer queue, in a state R143 faults, the length is taken modulo
`2^CW`; the spec gives no value there. -/
def State.stCount (s : State) : BitVec (countWidth s.cfg.maxBits) :=
  BitVec.ofNat _ s.q.length

/-- R28: the read-only word STATUS of `CW + 3` bits: COUNT in `[CW+2:3]`, HALTED in `[2]`, SATURATED in `[1]`, READING
in `[0]`. Past the capacity its COUNT field is what `st_count` is there (log entry 18). -/
def State.status (s : State) : BitVec (countWidth s.cfg.maxBits + 3) :=
  s.stCount ++ (BitVec.ofBool s.stHalted ++ BitVec.ofBool s.stSaturated ++ BitVec.ofBool s.stReading : BitVec 3)

end Sys2Proof.Machine
end

