-- ==== Sys2Proof/Machine/Ops.lean ====
section
/-! DEFINITION. The named operations on the queue, the output handshake, DRAIN, the reset event and the command port.
The block takes no exception and returns from none (R140, R148, R149), so there is no operation for either. -/

namespace Sys2Proof.Machine

/-! ### The queue and the output port -/

/-- R10: `QPush(b)`, append at the tail. -/
def State.qPush (b : Bit) (s : State) : State :=
  { s with q := s.q ++ [b] }

/-- R10: `QPopN(n)`, the `n` oldest bits and the state without them. Used only with `n = 8` and `|Q| >= 8`. -/
def State.qPopN (n : Nat) (s : State) : List Bit × State :=
  (s.q.take n, { s with q := s.q.drop n })

/-- R80, R81: append `b` unless the queue is full; the check compares the length before the append. -/
def State.offer (b : Bit) (s : State) : State :=
  if s.saturated then s else s.qPush b

/-- R13, R96: the consumer's answer to the next byte: an input, not computed by the block. -/
def State.nextAnswer (s : State) : Bit :=
  s.answers.headD (Config.freeAnswer s.answersRead)

/-- R13, R68, R95: `a <- emit(v)` hands `v` to the consumer and returns its answer. The byte is delivered whatever the
answer is. -/
def State.emit (v : Byte) (s : State) : Bit × State :=
  (s.nextAnswer,
    { s with answers := s.answers.tail, answersRead := s.answersRead + 1, emitted := s.emitted ++ [v] })

/-! ### DRAIN -/

/-- R94, steps 1 to 3 of one pass: remove the 8 oldest bits, pack them, emit the byte. Answers the consumer's answer. -/
def State.drainPass (s : State) : Bit × State :=
  (s.qPopN 8).2.emit (pack (s.qPopN 8).1)

/-- R94: at most `n` passes of the loop: stop with fewer than 8 bits left, or after a byte answered with pause, which
clears the Reading flag. -/
def State.drainPasses : Nat → State → State
  | 0, s => s
  | n + 1, s =>
    if s.q.length < 8 then s
    else if s.drainPass.1 then State.drainPasses n s.drainPass.2
    else { s.drainPass.2 with reading := false }

/-- R94: DRAIN. R97: `floor(|Q| / 8)` passes are all it can make. -/
def State.drain (s : State) : State :=
  State.drainPasses (s.q.length / 8) s

/-- R80: `if reading = 1: DRAIN()`. -/
def State.drainIfReading (s : State) : State :=
  if s.reading then s.drain else s

/-! ### Reset and the command port -/

/-- R160: the reset event. It emits no byte and reads no answer; what was emitted stays emitted (R161). -/
def State.resetEvent (s : State) : State :=
  { s with q := [], reading := false, halted := false }

/-- R67: nothing is presented. -/
def PortIn.nothing : PortIn :=
  { rst := false, cmdValid := false, cmd := 0b000#3 }

/-- R67: the word `w` is presented. -/
def PortIn.word (w : Cmd) : PortIn :=
  { rst := false, cmdValid := true, cmd := w }

/-- R160: reset is presented. -/
def PortIn.reset : PortIn :=
  { rst := true, cmdValid := false, cmd := 0b000#3 }

/-- What the pins show for the next transaction; after the end of `inputs`, nothing (log entry 2). -/
def State.port (s : State) : PortIn :=
  s.inputs.headD PortIn.nothing

/-- The transaction's pins are gone by: the environment owns the position in its stream (R21). -/
def State.advance (s : State) : State :=
  { s with inputs := s.inputs.tail }

/-- R143: the assertion `length ≤ MAX_BITS`. -/
def State.withinCapacity (s : State) : Bool :=
  decide (s.q.length ≤ s.cfg.maxBits)

/-- R147: what the block does with the pins, up to the taken command itself. A state past the capacity faults (R143, log
entry 5); reset wins over a command (R161); `cmd_valid = 0` takes no command (R67); a reserved word is refused, in every
state (R66, R144). Answers the command taken, or none, and the state it is applied to. -/
def State.fetch (s : State) : Host.Outcome (Option Instr × State) Fault Refusal :=
  if !s.withinCapacity then .fault .capacityInvariant
  else if s.port.rst then .next (none, s.advance.resetEvent)
  else if !s.port.cmdValid then .next (none, s.advance)
  else
    match decode s.port.cmd with
    | .ok i => .next (some i, s.advance)
    | .error (.reservedCommand w) => .refused (.reservedCommand w)

/-- The environment presents the opcode-table word `w` before anything else it presents (log entry 7). -/
def State.present (w : Nat) (s : State) : State :=
  { s with inputs := PortIn.word (Cmd.ofTableWord w) :: s.inputs }

end Sys2Proof.Machine
end

