-- ==== Sys2Proof/Machine/DrainControl.lean ====
section
/-! DEFINITION. The drain control family: REQMORE (41_drain_control.md). DRAIN itself is `State.drain`. -/

namespace Sys2Proof.Machine

/-- R90: `reading <- 1`. -/
def State.startReading (s : State) : State :=
  { s with reading := true }

/-- R90: REQMORE. Halted: no effect (R121). Else set the Reading flag to 1 and drain. -/
def execReqmore (s : State) : Host.Outcome State Fault Refusal :=
  if s.halted then .next s else .next s.startReading.drain

end Sys2Proof.Machine
end

