-- ==== Sys2Proof/Machine/Ingest.lean ====
section
/-! DEFINITION. The ingest family: INGEST and NOP (40_ingest.md). -/

namespace Sys2Proof.Machine

/-- R84: NOP does nothing, in every state. -/
def execNop (s : State) : Host.Outcome State Fault Refusal :=
  .next s

/-- R80: INGEST b. Halted: no effect (R121). Else append `b` unless the queue is full (R81), and drain if the Reading flag
is 1, whether or not the bit was appended (R82). -/
def execIngest (b : Bit) (s : State) : Host.Outcome State Fault Refusal :=
  if s.halted then .next s else .next (s.offer b).drainIfReading

end Sys2Proof.Machine
end

