-- ==== Sys2Proof/Machine/Terminate.lean ====
section
/-! DEFINITION. Termination: TERM (42_terminate.md). -/

namespace Sys2Proof.Machine

/-- R120: `Q <- []`, `reading <- 0`, `halted <- 1`; nothing is emitted. -/
def State.terminate (s : State) : State :=
  { s with q := [], reading := false, halted := true }

/-- R120: TERM. Halted already: no effect (R121). -/
def execTerm (s : State) : Host.Outcome State Fault Refusal :=
  if s.halted then .next s else .next s.terminate

end Sys2Proof.Machine
end

