-- ==== Sys2Proof/Machine/Dispatch.lean ====
section
/-! DEFINITION. One arm per command. -/

namespace Sys2Proof.Machine

def exec (i : Instr) (s : State) : Host.Outcome State Fault Refusal :=
  match i with
  | .nop => Sys2Proof.Machine.execNop s
  | .ingest b => Sys2Proof.Machine.execIngest b s
  | .reqmore => Sys2Proof.Machine.execReqmore s
  | .term => Sys2Proof.Machine.execTerm s

end Sys2Proof.Machine
end

