-- ==== Sys2Proof/Machine/Step.lean ====
section
/-! DEFINITION. One transaction (R15, R16): the pins are read, and the command taken, if any, is applied whole. -/

namespace Sys2Proof.Machine

/-- R15, R16, R52: one transaction, from a quiescent state to a quiescent state. -/
def step (s : State) : Host.Outcome State Fault Refusal :=
  match s.fetch with
  | .next (some i, t) => exec i t
  | .next (none, t) => .next t
  | .fault f => .fault f
  | .refused r => .refused r

/-- `k` transactions in a row, stopping at the first fault or refusal (R14, R143, R144: such a run does not go on). -/
def steps : Nat → State → Host.Outcome State Fault Refusal
  | 0, s => .next s
  | k + 1, s =>
    match step s with
    | .next t => steps k t
    | .fault f => .fault f
    | .refused r => .refused r

/-- `s` with the opcode-table word `w` presented at the command port for the very next step (log entry 7). All words have
one length (R63), so `nbits` plays no part. -/
def State.withFetchWord (s : State) (_nbits w : Nat) : State :=
  s.present w

end Sys2Proof.Machine
end

