-- ==== Sys2Proof/Machine/Assembler.lean ====
section
/-! DEFINITION. Program syntax (R69) and the pseudo-instruction FEED8 (R70): the text of a line, what it presents at the
command port, and how a program runs. Notation only; `step` does not use it (log entry 13). -/

namespace Sys2Proof.Machine

/-! ### What a line stands for -/

/-- R69, R70: what one line of a program asks for. -/
inductive AsmCommand where
  /-- a command word -/
  | command (i : Instr)
  /-- `FEED8 v` -/
  | feed8 (v : Byte)
  /-- `RESET`, the reset event of R160; no command word -/
  | reset
deriving DecidableEq, Repr

/-- R69: one line of a program. -/
inductive AsmLine where
  /-- an empty line, or a comment -/
  | blank
  /-- `; accept: a0,a1,...` -/
  | accept (A : List Bit)
  | item (c : AsmCommand)
deriving DecidableEq, Repr

/-- R70: FEED8 stands for eight INGEST commands, most-significant bit first. -/
def feed8 (v : Byte) : List Instr :=
  (bits v).map .ingest

/-- R69, R70: what the environment presents for a line. FEED8 is expanded before encoding. -/
def AsmCommand.samples : AsmCommand → List PortIn
  | .command i => [PortIn.word (encode i)]
  | .feed8 v => (Machine.feed8 v).map fun i => PortIn.word (encode i)
  | .reset => [PortIn.reset]

/-- R69: with an accept line, its answers; with none, every answer is 1, for as many bytes as the line can emit (R97). -/
def AsmCommand.load (c : AsmCommand) (A : Option (List Bit)) (s : State) : State :=
  { s with
    inputs := c.samples
    answers := A.getD (List.replicate ((s.q.length + c.samples.length) / 8) true) }

/-- The line's transactions, one after another. Answers it did not read are dropped with the line. -/
def AsmCommand.run (c : AsmCommand) (A : Option (List Bit)) (s : State) : Host.Outcome State Fault Refusal :=
  match steps c.samples.length (c.load A s) with
  | .next t => .next { t with inputs := [], answers := [] }
  | .fault f => .fault f
  | .refused r => .refused r

/-- R69: a program, line by line. `A` is the accept line waiting for the next command. DESIGN CHOICE (log entry 13):
RESET is no command and leaves it waiting; of two accept lines before one command the later counts; one with no command
after it says nothing. -/
def runProgram : List AsmLine → Option (List Bit) → State → Host.Outcome State Fault Refusal
  | [], _, s => .next s
  | .blank :: ls, A, s => runProgram ls A s
  | .accept B :: ls, _, s => runProgram ls (some B) s
  | .item .reset :: ls, A, s =>
    match AsmCommand.run .reset none s with
    | .next t => runProgram ls A t
    | .fault f => .fault f
    | .refused r => .refused r
  | .item c :: ls, A, s =>
    match c.run A s with
    | .next t => runProgram ls none t
    | .fault f => .fault f
    | .refused r => .refused r

/-! ### The text of a line -/

/-- Space or tab. -/
def isBlankChar (c : Char) : Bool :=
  c == ' ' || c == '\t'

/-- The words of `cs`; `w` is the word being read, last character first. -/
def wordsFrom : (w cs : List Char) → List (List Char)
  | w, [] => if w.isEmpty then [] else [w.reverse]
  | w, c :: cs =>
    if isBlankChar c then (if w.isEmpty then wordsFrom [] cs else w.reverse :: wordsFrom [] cs)
    else wordsFrom (c :: w) cs

/-- The pieces of `cs` between commas; `w` is the piece being read, last character first. -/
def piecesFrom : (w cs : List Char) → List (List Char)
  | w, [] => [w.reverse]
  | w, c :: cs => if c == ',' then w.reverse :: piecesFrom [] cs else piecesFrom (c :: w) cs

/-- A digit of base 16. -/
def digitValue (c : Char) : Option Nat :=
  let n := c.toNat
  if 48 ≤ n && n ≤ 57 then some (n - 48)
  else if 65 ≤ n && n ≤ 70 then some (n - 55)
  else if 97 ≤ n && n ≤ 102 then some (n - 87)
  else none

/-- Digits of `base` read after the value `acc`. -/
def numberFrom (base : Nat) : Nat → List Char → Option Nat
  | acc, [] => some acc
  | acc, c :: cs =>
    match digitValue c with
    | some d => if d < base then numberFrom base (base * acc + d) cs else none
    | none => none

/-- R70: a byte (0 to 255), decimal, or hexadecimal after `0x` (log entry 13). -/
def parseByte (cs : List Char) : Option Byte :=
  let n :=
    match cs with
    | [] => none
    | '0' :: 'x' :: [] => none
    | '0' :: 'x' :: ds => numberFrom 16 0 ds
    | ds => numberFrom 10 0 ds
  match n with
  | some k => if k < 256 then some (BitVec.ofNat 8 k) else none
  | none => none

/-- R9, R69: a bit is written `0` or `1`. -/
def parseBit : List Char → Option Bit
  | ['0'] => some false
  | ['1'] => some true
  | _ => none

/-- R69: the answers `a0,a1,...`, at least one, with blanks allowed round each (log entry 13). -/
def parseAnswers (cs : List Char) : Option (List Bit) :=
  (piecesFrom [] (cs.filter fun c => !isBlankChar c)).mapM parseBit

/-- R69, R70: the mnemonics. -/
def parseWords : List (List Char) → Option AsmCommand
  | [['N', 'O', 'P']] => some (.command .nop)
  | [['I', 'N', 'G', 'E', 'S', 'T'], b] => (parseBit b).map fun x => .command (.ingest x)
  | [['R', 'E', 'Q', 'M', 'O', 'R', 'E']] => some (.command .reqmore)
  | [['T', 'E', 'R', 'M']] => some (.command .term)
  | [['F', 'E', 'E', 'D', '8'], v] => (parseByte v).map .feed8
  | [['R', 'E', 'S', 'E', 'T']] => some .reset
  | _ => none

/-- R69: a line that is a comment: `accept:` and its answers, or any other words. DESIGN CHOICE (log entry 13): a comment
that begins with `accept:` and has an empty or malformed list of answers is no line of R69 (`none`), not a plain comment. -/
def parseComment (cs : List Char) : Option AsmLine :=
  match cs.dropWhile isBlankChar with
  | 'a' :: 'c' :: 'c' :: 'e' :: 'p' :: 't' :: ':' :: rest => (parseAnswers rest).map .accept
  | _ => some .blank

/-- R69: one line. A comment starts with `;`. DESIGN CHOICE (log entry 13): after a command on the same line a
comment says nothing to the block, `accept:` or not. `none`: no line of R69. -/
def parseLine (cs : List Char) : Option AsmLine :=
  match wordsFrom [] (cs.takeWhile (· != ';')) with
  | [] =>
    match cs.dropWhile (· != ';') with
    | [] => some .blank
    | _ :: comment => parseComment comment
  | ws => (parseWords ws).map .item

end Sys2Proof.Machine
end

