-- ==== Sys2Proof/Machine/Cycle.lean ====
section
/-! DEFINITION. The cycle-level realisation of R171: one clock edge at a time, with the control states Idle and Draining
(R100), the ports of R61 and a reset that may cut a drain off (R161). Informative in the spec: no rule rests on it, and
`step` does not use it (log entries 8 and 12). The answer on `out_accept` is the consumer's, `State.nextAnswer`. -/

namespace Sys2Proof.Machine

/-- R100: the two control states. -/
inductive Phase where
  | idle
  | draining
deriving DecidableEq, Repr

/-- The block between two clock edges. -/
structure Cycle where
  block : State
  phase : Phase
deriving DecidableEq, Repr

/-- R160: after reset the block is Idle. -/
def Cycle.reset : Cycle :=
  { block := State.reset, phase := .idle }

/-- R61, R67: `cmd_ready`, 0 while a transaction is in progress. -/
def Cycle.cmdReady (c : Cycle) : Bit :=
  c.phase == .idle

/-- R61, R68: `out_valid`, 1 in each clock of a drain (R171). -/
def Cycle.outValid (c : Cycle) : Bit :=
  c.phase == .draining

/-- R43, R61: `out_byte[7:0]`, the 8 oldest bits packed; it means something only while `out_valid = 1`. -/
def Cycle.outByte (c : Cycle) : Byte :=
  pack (c.block.q.take 8)

/-- R101: DRAIN runs inside INGEST and REQMORE only. -/
def Instr.entersDrain : Instr → Bool
  | .nop => false
  | .ingest _ => true
  | .reqmore => true
  | .term => false

/-- R171: what completes in the clock that takes the command: INGEST's capacity check and append, REQMORE's flag write,
TERM and NOP. Halted: nothing (R121). -/
def State.commandEdge (i : Instr) (s : State) : State :=
  if s.halted then s
  else
    match i with
    | .nop => s
    | .ingest b => s.offer b
    | .reqmore => s.startReading
    | .term => s.terminate

/-- R101: Idle to Draining on REQMORE when `|Q| >= 8`, or on INGEST when `reading = 1` and `|Q| >= 8` after the append. -/
def State.phaseAfter (i : Instr) (s : State) : Phase :=
  if !s.halted && Instr.entersDrain i && !(s.commandEdge i).idle then .draining else .idle

/-- R94, R171: one clock of a drain. The byte is on `out_byte` and its answer is sampled at the edge. Back to Idle on a
pause, or when fewer than 8 bits are left (R101). -/
def State.drainClock (s : State) : Cycle :=
  if s.drainPass.1 then
    { block := s.drainPass.2, phase := if s.drainPass.2.q.length < 8 then .idle else .draining }
  else { block := { s.drainPass.2 with reading := false }, phase := .idle }

/-- R67, R171: a clock edge in Idle takes the command presented, if any. -/
def Cycle.takeCommand (p : PortIn) (c : Cycle) : Host.Outcome Cycle Fault Refusal :=
  if !p.cmdValid then .next c
  else
    match decode p.cmd with
    | .ok i => .next { block := c.block.commandEdge i, phase := c.block.phaseAfter i }
    | .error (.reservedCommand w) => .refused (.reservedCommand w)

/-- R171: one clock edge. The assertion of R143 first. In a drain a byte goes out, and no command is taken
(`cmd_ready = 0`, R67). DESIGN CHOICE (log entry 6): so a reserved word shown with `cmd_valid = 1` in a drain is not taken
and not refused, and the drain goes on; the spec does not say whether it counts as presented (R167, D4). `rst` sampled at the edge wins: a byte on the port in that clock stays emitted and the rest of the
transaction has no effect (R161; log entry 12). -/
def Cycle.clock (p : PortIn) (c : Cycle) : Host.Outcome Cycle Fault Refusal :=
  if !c.block.withinCapacity then .fault .capacityInvariant
  else
    match c.phase with
    | .draining =>
      if p.rst then .next { block := c.block.drainPass.2.resetEvent, phase := .idle }
      else .next c.block.drainClock
    | .idle =>
      if p.rst then .next { block := c.block.resetEvent, phase := .idle }
      else c.takeCommand p

/-- The clock edges at which the pins show `ps`, one after another. -/
def Cycle.clocks : List PortIn → Cycle → Host.Outcome Cycle Fault Refusal
  | [], c => .next c
  | p :: ps, c =>
    match c.clock p with
    | .next d => Cycle.clocks ps d
    | .fault f => .fault f
    | .refused r => .refused r

end Sys2Proof.Machine
end

