-- ==== Sys2Proof/Safety.lean ====
section
/-! DEFINITION. What the rules promise of a run: the invariant of quiescent states, the duties of the environment, and the
account of accepted bits and emitted bytes that R46 keeps. -/

namespace Sys2Proof.Machine

/-! ### The invariant of quiescent states -/

/-- R23, R81: `length ≤ MAX_BITS` at all times. -/
abbrev State.CapacityKept (s : State) : Prop :=
  s.q.length ≤ s.cfg.maxBits

/-- R108: at every quiescent point, `reading = 1` implies `|Q| < 8`. -/
abbrev State.DrainedWhileReading (s : State) : Prop :=
  s.reading = true → s.q.length < 8

/-- R120, R121: what TERM leaves stays while `halted = 1`: `Q` empty and `reading = 0`. -/
abbrev State.EmptyWhileHalted (s : State) : Prop :=
  s.halted = true → s.q = [] ∧ s.reading = false

/-- The invariant of quiescent states: R81, R108 and R121 together. -/
abbrev State.Inv (s : State) : Prop :=
  s.CapacityKept ∧ s.DrainedWhileReading ∧ s.EmptyWhileHalted

/-! ### The environment -/

/-- R167: what is presented is no reserved command word: reset, nothing, or a word that decodes. -/
def PortIn.legal (p : PortIn) : Bool :=
  p.rst || !p.cmdValid ||
    (match decode p.cmd with
      | .ok _ => true
      | .error _ => false)

/-- The command the block takes from the pins, if it takes one (R67, R147, R161). -/
def PortIn.taken (p : PortIn) : Option Instr :=
  if p.rst || !p.cmdValid then none
  else
    match decode p.cmd with
    | .ok i => some i
    | .error _ => none

/-- R96: the consumer's answer to the `k`-th byte from now, counting from 0. -/
def State.answerAt (s : State) (k : Nat) : Bit :=
  s.answers.getD k (Config.freeAnswer (s.answersRead + k))

/-- R93: the bytes `pack(Q[8i .. 8i+7])` for `i = 0 .. k-1`. -/
def packedPrefix (Q : List Bit) (k : Nat) : List Byte :=
  (List.range k).map fun i => pack ((Q.drop (8 * i)).take 8)

/-- R93: `s` after its `k` oldest bytes went out and their `k` answers were read; the Reading flag is left as `r`. -/
def State.afterBytes (s : State) (k : Nat) (r : Bit) : State :=
  { s with
    q := s.q.drop (8 * k)
    reading := r
    answers := s.answers.drop k
    answersRead := s.answersRead + k
    emitted := s.emitted ++ packedPrefix s.q k }

/-! ### The account of bits and bytes (R46) -/

/-- R46: a state with `S`, the bits accepted since the last reset or TERM, and the bytes emitted since then. The two lists
are the observer's, not the block's. -/
structure Ledger where
  state : State
  accepted : List Bit
  sent : List Byte
deriving DecidableEq, Repr

/-- R46, R81: the bits a command accepts into the queue: the operand of INGEST, unless halted or saturated. -/
def State.accepts (i : Instr) (s : State) : List Bit :=
  match i with
  | .nop => []
  | .ingest b => if s.halted || s.saturated then [] else [b]
  | .reqmore => []
  | .term => []

/-- R46: the bits the next transaction accepts. -/
def State.acceptedNext (s : State) : List Bit :=
  match s.port.taken with
  | some i => s.accepts i
  | none => []

/-- R46: the next transaction starts the account anew: reset, or TERM. -/
def State.startsAnew (s : State) : Bool :=
  s.port.rst || s.port.taken == some .term

/-- One transaction, with its entry in the account. -/
def Ledger.step (l : Ledger) : Host.Outcome Ledger Fault Refusal :=
  match Machine.step l.state with
  | .next t =>
    .next
      { state := t
        accepted := if l.state.startsAnew then [] else l.accepted ++ l.state.acceptedNext
        sent := if l.state.startsAnew then [] else l.sent ++ t.emitted.drop l.state.emitted.length }
  | .fault f => .fault f
  | .refused r => .refused r

/-- `k` transactions with their entries. -/
def Ledger.steps : Nat → Ledger → Host.Outcome Ledger Fault Refusal
  | 0, l => .next l
  | k + 1, l =>
    match l.step with
    | .next m => Ledger.steps k m
    | .fault f => .fault f
    | .refused r => .refused r

/-- An account opened on the state `s`: nothing accepted, nothing sent. -/
def Ledger.open (s : State) : Ledger :=
  { state := s, accepted := [], sent := [] }

/-- R46: the bits of the bytes sent, and then the queue, are exactly the accepted bits, in order. -/
abbrev Ledger.Balanced (l : Ledger) : Prop :=
  l.accepted = l.sent.flatMap bits ++ l.state.q

end Sys2Proof.Machine
end

