-- ==== Sys2Proof/Certificates/Slice0/Obligations.lean ====
section
/-! DEFINITION. The statements for the provers, each from the rules of spec/ its docstring cites. -/

open Sys2Proof Sys2Proof.Machine

/-- R64: the opcode map, word by word. -/
def Obligations.OpcodeMapOfAllEightWords : Prop :=
  decode 0b000#3 = .ok .nop ∧ decode 0b001#3 = .error (.reservedCommand 0b001#3) ∧
  decode 0b010#3 = .ok (.ingest false) ∧ decode 0b011#3 = .ok (.ingest true) ∧
  decode 0b100#3 = .ok .reqmore ∧ decode 0b101#3 = .error (.reservedCommand 0b101#3) ∧
  decode 0b110#3 = .ok .term ∧ decode 0b111#3 = .error (.reservedCommand 0b111#3)

/-- R63 to R65: no bit of an encoding is dropped. -/
def Obligations.DecodeOfEncodeIsTheCommand : Prop :=
  ∀ i : Instr, decode (encode i) = .ok i

/-- R63: every 3-bit word is exactly one command word, or reserved (R66). -/
def Obligations.EncodeOfDecodeIsTheWord : Prop :=
  ∀ (w : Cmd) (i : Instr), decode w = .ok i → encode i = w

/-- R144: a reserved word is refused in every state within its capacity; a refused command has no step, for any number of steps asked. -/
def Obligations.ReservedWordIsRefusedForGood : Prop :=
  ∀ s : State, s.CapacityKept → s.port.rst = false → s.port.cmdValid = true →
    (s.port.cmd = 0b001#3 ∨ s.port.cmd = 0b101#3 ∨ s.port.cmd = 0b111#3) →
    step s = .refused (.reservedCommand s.port.cmd) ∧
    ∀ k, steps (k + 1) s = .refused (.reservedCommand s.port.cmd)

/-- R15, R16, R67: a presented command is applied in one step. That the pins move on is the model's own (log entry 2). -/
def Obligations.StepRunsTheDecodedCommand : Prop :=
  ∀ (s : State) (i : Instr), s.CapacityKept → s.port.rst = false → s.port.cmdValid = true →
    decode s.port.cmd = .ok i → step s = exec i { s with inputs := s.inputs.tail }

/-- R67: when `cmd_valid = 0`, no command is taken. That an exhausted list presents nothing is the model's choice (log entry 2). -/
def Obligations.NothingPresentedTakesNoCommand : Prop :=
  ∀ s : State, s.CapacityKept →
    (s.inputs = [] → step s = .next s) ∧
    (s.port.rst = false → s.port.cmdValid = false → step s = .next { s with inputs := s.inputs.tail })

/-- R160, R161, R147: the reset event, whatever else is on the pins. -/
def Obligations.ResetEventWinsAndClearsTheBlock : Prop :=
  ∀ s : State, s.CapacityKept → s.port.rst = true →
    step s = .next { s with q := [], reading := false, halted := false, inputs := s.inputs.tail }

/-- R32: the reset values, at every capacity. -/
def Obligations.ResetStateIsEmptyAndIdle : Prop :=
  (∀ c : Config,
    (State.resetWith c).q = [] ∧ (State.resetWith c).reading = false ∧ (State.resetWith c).halted = false ∧
    (State.resetWith c).idle = true) ∧
  (∃ c : Config, State.reset = State.resetWith c) ∧ Cycle.reset.block = State.reset ∧ Cycle.reset.phase = .idle

/-- R143: the assertion, its stickiness, and that the rules cannot reach it. That the test comes before the reset pin is the
model's reading of `no later event clears the fault` (log entry 5). -/
def Obligations.OverfullQueueFaultsForGood : Prop :=
  (∀ s : State, s.cfg.maxBits < s.q.length → ∀ k, steps (k + 1) s = .fault .capacityInvariant) ∧
  (∀ s : State, s.CapacityKept → step s ≠ .fault .capacityInvariant ∧ ∀ t, step s = .next t → t.CapacityKept)

/-- R84: NOP, in every state; the frame is the whole state. An idle port is equivalent. -/
def Obligations.NopChangesNothing : Prop :=
  (∀ s : State, exec .nop s = .next s) ∧
  (∀ (s : State) (w : Cmd) (ps : List PortIn),
    step { s with inputs := { rst := false, cmdValid := false, cmd := w } :: ps } =
    step { s with inputs := PortIn.word 0b000#3 :: ps })

/-- R80: INGEST, whole; the record updates are its frame. -/
def Obligations.IngestExactResult : Prop :=
  ∀ (b : Bit) (s : State),
    (s.halted = true → exec (.ingest b) s = .next s) ∧
    (s.halted = false →
      ∀ t : State, t = { s with q := if s.q.length < s.cfg.maxBits then s.q ++ [b] else s.q } →
        (s.reading = false → exec (.ingest b) s = .next t) ∧
        (s.reading = true →
          ((∀ i < t.q.length / 8, s.answerAt i = true) →
            exec (.ingest b) s = .next (t.afterBytes (t.q.length / 8) true)) ∧
          (∀ j < t.q.length / 8, (∀ i < j, s.answerAt i = true) → s.answerAt j = false →
            exec (.ingest b) s = .next (t.afterBytes (j + 1) false))))

/-- R83: the one byte of an INGEST from a quiescent state (R108: `reading = 1` implies `|Q| < 8`). -/
def Obligations.IngestEmitsAtMostOneByte : Prop :=
  ∀ (b : Bit) (s : State), s.DrainedWhileReading →
    ((s.halted = false ∧ s.reading = true ∧ s.q.length = 7 ∧ 8 ≤ s.cfg.maxBits) →
      exec (.ingest b) s = .next
        { s with
          q := []
          reading := s.nextAnswer
          answers := s.answers.tail
          answersRead := s.answersRead + 1
          emitted := s.emitted ++ [pack (s.q ++ [b])] }) ∧
    (¬ (s.halted = false ∧ s.reading = true ∧ s.q.length = 7 ∧ 8 ≤ s.cfg.maxBits) →
      ∃ t, exec (.ingest b) s = .next t ∧ t.emitted = s.emitted ∧ t.answers = s.answers ∧
        t.answersRead = s.answersRead)

/-- R31: a dropped bit leaves no trace (from a state with `|Q| < 8` while reading, R108). -/
def Obligations.DroppedBitLeavesNoTrace : Prop :=
  ∀ (b : Bit) (s : State), s.DrainedWhileReading → s.cfg.maxBits ≤ s.q.length → exec (.ingest b) s = .next s

/-- R48, R81, W2: when the queue is full the new bit is dropped and no old one is evicted. -/
def Obligations.QueueKeepsTheFirstBitsIngested : Prop :=
  ∀ (bs : List Bit) (s : State) (ps : List PortIn), s.CapacityKept → s.halted = false → s.reading = false →
    s.inputs = (bs.map fun b => PortIn.word (encode (.ingest b))) ++ ps →
    steps bs.length s = .next { s with q := (s.q ++ bs).take s.cfg.maxBits, inputs := ps }

/-- R94: the loop, one pass at a time, with no count of passes. -/
def Obligations.DrainIsTheLoopOfTheRule : Prop :=
  ∀ s : State, s.reading = true →
    (s.q.length < 8 → s.drain = s) ∧
    (8 ≤ s.q.length →
      ∀ t : State,
        t = { s with
              q := s.q.drop 8
              answers := s.answers.tail
              answersRead := s.answersRead + 1
              emitted := s.emitted ++ [pack (s.q.take 8)] } →
        (s.nextAnswer = false → s.drain = { t with reading := false }) ∧
        (s.nextAnswer = true → s.drain = t.drain))

/-- R93: the closed form of REQMORE; `State.afterBytes` is the frame. -/
def Obligations.ReqmoreExactResult : Prop :=
  ∀ s : State, s.halted = false →
    ((∀ i < s.q.length / 8, s.answerAt i = true) →
      exec .reqmore s = .next (s.afterBytes (s.q.length / 8) true) ∧
      (s.afterBytes (s.q.length / 8) true).q.length = s.q.length % 8) ∧
    (∀ j < s.q.length / 8, (∀ i < j, s.answerAt i = true) → s.answerAt j = false →
      exec .reqmore s = .next (s.afterBytes (j + 1) false))

/-- R92: idempotent idle. -/
def Obligations.PullOnAShortQueueOnlySetsReading : Prop :=
  ∀ s : State, s.q.length < 8 → s.halted = false → exec .reqmore s = .next { s with reading := true }

/-- R97: each pass removes 8 bits, so DRAIN always ends. -/
def Obligations.DrainPassesAreBounded : Prop :=
  ∀ s : State,
    s.drain.emitted.length ≤ s.emitted.length + s.q.length / 8 ∧
    (s.CapacityKept → s.drain.emitted.length ≤ s.emitted.length + s.cfg.maxBits / 8)

/-- R120: TERM, whole. -/
def Obligations.TermDiscardsAllPendingState : Prop :=
  ∀ s : State,
    (s.halted = false → exec .term s = .next { s with q := [], reading := false, halted := true }) ∧
    (s.halted = true → exec .term s = .next s)

/-- R121: the absorbing state. -/
def Obligations.HaltedAbsorbsEveryCommand : Prop :=
  ∀ s : State, s.halted = true →
    (∀ i : Instr, exec i s = .next s) ∧
    (∀ r, s.CapacityKept → s.port.rst = false → s.port.cmdValid = true → decode s.port.cmd = .error (.reservedCommand r) →
      step s = .refused (.reservedCommand r)) ∧
    (∀ t, step s = .next t → t.halted = false → s.port.rst = true)

/-- R170: TERM is final until reset, over runs of every length. -/
def Obligations.TermIsFinalUntilReset : Prop :=
  ∀ (k : Nat) (s t : State), s.halted = true → (∀ p ∈ s.inputs.take k, p.rst = false) → steps k s = .next t →
    t = { s with inputs := s.inputs.drop k }

/-- R32, R108: the base of the induction. -/
def Obligations.InvariantHoldsAtReset : Prop :=
  ∀ c : Config, (State.resetWith c).Inv

/-- R23, R81, R108, R121: the invariant of the machine, from every state that meets it. -/
def Obligations.InvariantKeptByEveryStep : Prop :=
  ∀ s t : State, s.Inv → step s = .next t → t.Inv ∧ t.cfg = s.cfg

/-- R108, R100: Draining exists only inside a transaction. -/
def Obligations.QuiescentStatesAreIdle : Prop :=
  (∀ c : Config, (State.resetWith c).idle = true) ∧
  (∀ s t : State, s.idle = true → step s = .next t → t.idle = true ∧ (t.reading = true → t.q.length < 8))

/-- R99, R146, R164: only REQMORE enables emission, over runs of every length from every state. -/
def Obligations.NoByteUntilThePull : Prop :=
  ∀ (k : Nat) (s t : State), s.reading = false → (∀ p ∈ s.inputs.take k, p.taken ≠ some .reqmore) →
    steps k s = .next t →
    t.reading = false ∧ t.emitted = s.emitted ∧ t.answers = s.answers ∧ t.answersRead = s.answersRead

/-- R142, R143, R167: nothing but a reserved word stops the block. -/
def Obligations.LegalInputsNeverStopTheMachine : Prop :=
  ∀ (k : Nat) (s : State), s.CapacityKept → (∀ p ∈ s.inputs.take k, p.legal = true) →
    ∃ t, steps k s = .next t ∧ t.CapacityKept ∧ t.inputs = s.inputs.drop k

/-- R107: the loop never makes a pass. -/
def Obligations.SmallCapacityNeverEmits : Prop :=
  ∀ (k : Nat) (s t : State), s.cfg.maxBits < 8 → s.CapacityKept → steps k s = .next t → t.emitted = s.emitted

/-- R22 to R24, R33: the write table of the four commands, as what is left alone. -/
def Obligations.FrameOfEveryCommand : Prop :=
  ∀ (i : Instr) (s t : State), exec i s = .next t →
    t.cfg = s.cfg ∧ t.inputs = s.inputs ∧
    (i ≠ .term → t.halted = s.halted) ∧
    (i ≠ .reqmore → t.reading = true → s.reading = true) ∧
    (i = .nop → t.q = s.q ∧ t.reading = s.reading) ∧
    (s.reading = false → i ≠ .reqmore → i ≠ .term → s.q <+: t.q) ∧
    s.emitted <+: t.emitted ∧
    (i = .nop ∨ i = .term ∨ (s.reading = false ∧ i ≠ .reqmore) →
      t.emitted = s.emitted ∧ t.answers = s.answers ∧ t.answersRead = s.answersRead)

/-- R16: the step reads exactly `|E|` answers. The counter and the list of answers are the model's (log entry 3). -/
def Obligations.EachByteReadsOneAnswer : Prop :=
  ∀ (i : Instr) (s t : State), exec i s = .next t →
    ∃ E : List Byte, t.emitted = s.emitted ++ E ∧ t.answersRead = s.answersRead + E.length ∧
      t.answers = s.answers.drop E.length

/-- R44, R48, R49, R95, R103: strict FIFO, nothing evicted, leftovers stay, a paused byte's bits do not come back. -/
def Obligations.NoBitSkippedOrDuplicated : Prop :=
  ∀ (i : Instr) (s t : State), i ≠ .term → exec i s = .next t →
    ∃ E : List Byte, t.emitted = s.emitted ++ E ∧
      E.flatMap bits ++ t.q =
        s.q ++ s.accepts i

/-- R46: at every quiescent point the account balances; the inductive step, from every balanced account. -/
def Obligations.LedgerStaysBalanced : Prop :=
  ∀ l m : Ledger, l.state.Inv → l.Balanced → l.step = .next m → m.Balanced

/-- R46, R47: byte boundaries are fixed by counting accepted bits; the count is conserved. -/
def Obligations.KthByteIsPackedFromTheKthRunOfBits : Prop :=
  ∀ (k : Nat) (s : State) (l : Ledger), s.Inv → s.q = [] → Ledger.steps k (Ledger.open s) = .next l →
    l.sent = packedPrefix l.accepted l.sent.length ∧
    l.state.q = l.accepted.drop (8 * l.sent.length) ∧
    l.accepted.length = 8 * l.sent.length + l.state.q.length

/-- R20, R54: only the state record, the configuration, the command and the answers count. -/
def Obligations.OutputsDoNotFeedBack : Prop :=
  ∀ (i : Instr) (s t : State) (ps : List PortIn) (es : List Byte), exec i s = .next t →
    exec i { s with inputs := ps, emitted := es } =
      .next { t with inputs := ps, emitted := es ++ t.emitted.drop s.emitted.length }

/-- R51: what repeating a command gives. -/
def Obligations.RepeatingACommand : Prop :=
  (∀ (i : Instr) (s t : State), (i = .nop ∨ i = .term ∨ (i = .reqmore ∧ s.q.length < 8)) → exec i s = .next t →
    exec i t = .next t) ∧
  (∀ (b : Bit) (s t : State), s.halted = false → s.reading = false → s.q.length + 2 ≤ s.cfg.maxBits →
    exec (.ingest b) s = .next t → exec (.ingest b) t = .next { s with q := s.q ++ [b, b] })

/-- R12: `pack`. -/
def Obligations.PackIsTheWeightedSum : Prop :=
  ∀ b0 b1 b2 b3 b4 b5 b6 b7 : Bit,
    (pack [b0, b1, b2, b3, b4, b5, b6, b7]).toNat =
      b0.toNat * 128 + b1.toNat * 64 + b2.toNat * 32 + b3.toNat * 16 + b4.toNat * 8 + b5.toNat * 4 + b6.toNat * 2 +
        b7.toNat * 1

/-- R106, W1: the FIFO packing property, for capacities that can hold a byte (R107). -/
def Obligations.EightBitsWhileReadingEmitTheirByte : Prop :=
  ∀ (b1 b2 b3 b4 b5 b6 b7 b8 : Bit) (s : State) (ps : List PortIn),
    8 ≤ s.cfg.maxBits → s.halted = false → s.reading = true → s.q = [] → s.nextAnswer = true →
    s.inputs = ([b1, b2, b3, b4, b5, b6, b7, b8].map fun b => PortIn.word (encode (.ingest b))) ++ ps →
    ∃ v : Byte,
      v.toNat =
        b1.toNat * 128 + b2.toNat * 64 + b3.toNat * 32 + b4.toNat * 16 + b5.toNat * 8 + b6.toNat * 4 + b7.toNat * 2 +
          b8.toNat * 1 ∧
      steps 8 s = .next
        { s with
          inputs := ps
          answers := s.answers.tail
          answersRead := s.answersRead + 1
          emitted := s.emitted ++ [v] }

/-- R70: the pseudo-instruction FEED8. -/
def Obligations.FeedEightPresentsTheByteMsbFirst : Prop :=
  ∀ v : Byte,
    feed8 v = [.ingest (v.getLsbD 7), .ingest (v.getLsbD 6), .ingest (v.getLsbD 5), .ingest (v.getLsbD 4),
      .ingest (v.getLsbD 3), .ingest (v.getLsbD 2), .ingest (v.getLsbD 1), .ingest (v.getLsbD 0)] ∧
    (AsmCommand.feed8 v).samples = (feed8 v).map (fun i => PortIn.word (encode i)) ∧
    pack [v.getLsbD 7, v.getLsbD 6, v.getLsbD 5, v.getLsbD 4, v.getLsbD 3, v.getLsbD 2, v.getLsbD 1, v.getLsbD 0] = v

/-- R28: the status outputs, packed; each a pure function of the state. -/
def Obligations.StatusWordShowsTheState : Prop :=
  (∀ s : State, s.CapacityKept →
    s.status.toNat =
      s.reading.toNat + 2 * (decide (s.q.length ≥ s.cfg.maxBits)).toNat + 4 * s.halted.toNat + 8 * s.q.length ∧
    s.stReading = s.reading ∧ s.stSaturated = decide (s.q.length ≥ s.cfg.maxBits) ∧ s.stHalted = s.halted ∧
    s.stCount.toNat = s.q.length) ∧
  (∀ c : Config, (State.resetWith c).status.toNat = if c.maxBits = 0 then 2 else 0)

/-- R7: `CW = max(1, ceil(log2(MAX_BITS + 1)))`. -/
def Obligations.CountWidthIsTheLeastWidth : Prop :=
  (∀ n : Nat, n < 2 ^ countWidth n ∧ 1 ≤ countWidth n ∧ ∀ w, 1 ≤ w → n < 2 ^ w → countWidth n ≤ w) ∧
  countWidth 1024 = 11

/-- R101: the transitions of the two control states, as the cycle-level layer makes them. -/
def Obligations.ControlStateTransitions : Prop :=
  (∀ (i : Instr) (s : State),
    s.phaseAfter i = .draining ↔
      s.halted = false ∧
      ((i = .reqmore ∧ 8 ≤ s.q.length) ∨
        ∃ b, i = .ingest b ∧ s.reading = true ∧
          8 ≤ (if s.q.length < s.cfg.maxBits then s.q ++ [b] else s.q).length)) ∧
  (∀ s : State, s.drainClock.phase = .idle ↔ s.nextAnswer = false ∨ s.q.length < 16)

/-- R171, R172, R165: the informative realisation refines the transaction (log entries 8 and 12). That a reserved word
shown during the drain is ignored is the model's choice (log entry 6). -/
def Obligations.CycleLevelRefinesTheTransaction : Prop :=
  ∀ (i : Instr) (s t : State) (pins : List PortIn), s.CapacityKept → exec i s = .next t →
    (∀ p ∈ pins, p.rst = false) → pins.length + s.emitted.length = t.emitted.length →
    Cycle.clocks (PortIn.word (encode i) :: pins) { block := s, phase := .idle } =
      .next { block := t, phase := .idle }

/-- R67, R68, R171: the ports in each clock of a drain. That a reserved word shown meanwhile is ignored is the model's choice
(log entry 6). -/
def Obligations.CycleLevelIsBusyUntilTheLastByte : Prop :=
  ∀ (i : Instr) (s t : State) (pins : List PortIn), s.CapacityKept → exec i s = .next t →
    (∀ p ∈ pins, p.rst = false) → pins.length + s.emitted.length < t.emitted.length →
    ∃ c : Cycle,
      Cycle.clocks (PortIn.word (encode i) :: pins) { block := s, phase := .idle } = .next c ∧
      c.cmdReady = false ∧ c.outValid = true ∧
      t.emitted[s.emitted.length + pins.length]? = some c.outByte

/-- R161: reset during a transaction. That the byte on the port in the same clock counts as emitted is the model's choice (log entry 12). -/
def Obligations.CycleLevelResetCutsTheDrainOff : Prop :=
  ∀ (c : Cycle) (p : PortIn), c.block.CapacityKept → c.phase = .draining → p.rst = true →
    ∃ d : Cycle, c.clock p = .next d ∧ d.phase = .idle ∧ d.cmdReady = true ∧
      d.block.q = [] ∧ d.block.reading = false ∧ d.block.halted = false ∧
      d.block.emitted = c.block.emitted ++ [c.outByte]
end

