-- ==== Sys2Proof/Laws/State.lean ====
section
/-! SUPPORT. One lemma per field per update of State, each true by unfolding the update once, so that no later proof does. -/

namespace Sys2Proof.Machine

/-! ### qPush -/

@[simp] theorem State.qPush_q (b : Bit) (s : State) : (s.qPush b).q = s.q ++ [b] := rfl
@[simp] theorem State.qPush_reading (b : Bit) (s : State) : (s.qPush b).reading = s.reading := rfl
@[simp] theorem State.qPush_halted (b : Bit) (s : State) : (s.qPush b).halted = s.halted := rfl
@[simp] theorem State.qPush_cfg (b : Bit) (s : State) : (s.qPush b).cfg = s.cfg := rfl
@[simp] theorem State.qPush_inputs (b : Bit) (s : State) : (s.qPush b).inputs = s.inputs := rfl
@[simp] theorem State.qPush_answers (b : Bit) (s : State) : (s.qPush b).answers = s.answers := rfl
@[simp] theorem State.qPush_answersRead (b : Bit) (s : State) : (s.qPush b).answersRead = s.answersRead := rfl
@[simp] theorem State.qPush_emitted (b : Bit) (s : State) : (s.qPush b).emitted = s.emitted := rfl

/-! ### startReading -/

@[simp] theorem State.startReading_q (s : State) : s.startReading.q = s.q := rfl
@[simp] theorem State.startReading_reading (s : State) : s.startReading.reading = true := rfl
@[simp] theorem State.startReading_halted (s : State) : s.startReading.halted = s.halted := rfl
@[simp] theorem State.startReading_cfg (s : State) : s.startReading.cfg = s.cfg := rfl
@[simp] theorem State.startReading_inputs (s : State) : s.startReading.inputs = s.inputs := rfl
@[simp] theorem State.startReading_answers (s : State) : s.startReading.answers = s.answers := rfl
@[simp] theorem State.startReading_answersRead (s : State) : s.startReading.answersRead = s.answersRead := rfl
@[simp] theorem State.startReading_emitted (s : State) : s.startReading.emitted = s.emitted := rfl

/-! ### terminate -/

@[simp] theorem State.terminate_q (s : State) : s.terminate.q = [] := rfl
@[simp] theorem State.terminate_reading (s : State) : s.terminate.reading = false := rfl
@[simp] theorem State.terminate_halted (s : State) : s.terminate.halted = true := rfl
@[simp] theorem State.terminate_cfg (s : State) : s.terminate.cfg = s.cfg := rfl
@[simp] theorem State.terminate_inputs (s : State) : s.terminate.inputs = s.inputs := rfl
@[simp] theorem State.terminate_answers (s : State) : s.terminate.answers = s.answers := rfl
@[simp] theorem State.terminate_answersRead (s : State) : s.terminate.answersRead = s.answersRead := rfl
@[simp] theorem State.terminate_emitted (s : State) : s.terminate.emitted = s.emitted := rfl

/-! ### resetEvent -/

@[simp] theorem State.resetEvent_q (s : State) : s.resetEvent.q = [] := rfl
@[simp] theorem State.resetEvent_reading (s : State) : s.resetEvent.reading = false := rfl
@[simp] theorem State.resetEvent_halted (s : State) : s.resetEvent.halted = false := rfl
@[simp] theorem State.resetEvent_cfg (s : State) : s.resetEvent.cfg = s.cfg := rfl
@[simp] theorem State.resetEvent_inputs (s : State) : s.resetEvent.inputs = s.inputs := rfl
@[simp] theorem State.resetEvent_answers (s : State) : s.resetEvent.answers = s.answers := rfl
@[simp] theorem State.resetEvent_answersRead (s : State) : s.resetEvent.answersRead = s.answersRead := rfl
@[simp] theorem State.resetEvent_emitted (s : State) : s.resetEvent.emitted = s.emitted := rfl

/-! ### advance -/

@[simp] theorem State.advance_q (s : State) : s.advance.q = s.q := rfl
@[simp] theorem State.advance_reading (s : State) : s.advance.reading = s.reading := rfl
@[simp] theorem State.advance_halted (s : State) : s.advance.halted = s.halted := rfl
@[simp] theorem State.advance_cfg (s : State) : s.advance.cfg = s.cfg := rfl
@[simp] theorem State.advance_inputs (s : State) : s.advance.inputs = s.inputs.tail := rfl
@[simp] theorem State.advance_answers (s : State) : s.advance.answers = s.answers := rfl
@[simp] theorem State.advance_answersRead (s : State) : s.advance.answersRead = s.answersRead := rfl
@[simp] theorem State.advance_emitted (s : State) : s.advance.emitted = s.emitted := rfl

/-! ### present -/

@[simp] theorem State.present_q (w : Nat) (s : State) : (s.present w).q = s.q := rfl
@[simp] theorem State.present_reading (w : Nat) (s : State) : (s.present w).reading = s.reading := rfl
@[simp] theorem State.present_halted (w : Nat) (s : State) : (s.present w).halted = s.halted := rfl
@[simp] theorem State.present_cfg (w : Nat) (s : State) : (s.present w).cfg = s.cfg := rfl
@[simp] theorem State.present_inputs (w : Nat) (s : State) : (s.present w).inputs = PortIn.word (Cmd.ofTableWord w) :: s.inputs := rfl
@[simp] theorem State.present_answers (w : Nat) (s : State) : (s.present w).answers = s.answers := rfl
@[simp] theorem State.present_answersRead (w : Nat) (s : State) : (s.present w).answersRead = s.answersRead := rfl
@[simp] theorem State.present_emitted (w : Nat) (s : State) : (s.present w).emitted = s.emitted := rfl

/-! ### drainPass -/

@[simp] theorem State.drainPass_q (s : State) : s.drainPass.2.q = s.q.drop 8 := rfl
@[simp] theorem State.drainPass_reading (s : State) : s.drainPass.2.reading = s.reading := rfl
@[simp] theorem State.drainPass_halted (s : State) : s.drainPass.2.halted = s.halted := rfl
@[simp] theorem State.drainPass_cfg (s : State) : s.drainPass.2.cfg = s.cfg := rfl
@[simp] theorem State.drainPass_inputs (s : State) : s.drainPass.2.inputs = s.inputs := rfl
@[simp] theorem State.drainPass_answers (s : State) : s.drainPass.2.answers = s.answers.tail := rfl
@[simp] theorem State.drainPass_answersRead (s : State) : s.drainPass.2.answersRead = s.answersRead + 1 := rfl
@[simp] theorem State.drainPass_emitted (s : State) : s.drainPass.2.emitted = s.emitted ++ [pack (s.q.take 8)] := rfl

/-! ### afterBytes -/

@[simp] theorem State.afterBytes_q (k : Nat) (r : Bit) (s : State) : (s.afterBytes k r).q = s.q.drop (8 * k) := rfl
@[simp] theorem State.afterBytes_reading (k : Nat) (r : Bit) (s : State) : (s.afterBytes k r).reading = r := rfl
@[simp] theorem State.afterBytes_halted (k : Nat) (r : Bit) (s : State) : (s.afterBytes k r).halted = s.halted := rfl
@[simp] theorem State.afterBytes_cfg (k : Nat) (r : Bit) (s : State) : (s.afterBytes k r).cfg = s.cfg := rfl
@[simp] theorem State.afterBytes_inputs (k : Nat) (r : Bit) (s : State) : (s.afterBytes k r).inputs = s.inputs := rfl
@[simp] theorem State.afterBytes_answers (k : Nat) (r : Bit) (s : State) : (s.afterBytes k r).answers = s.answers.drop k := rfl
@[simp] theorem State.afterBytes_answersRead (k : Nat) (r : Bit) (s : State) : (s.afterBytes k r).answersRead = s.answersRead + k := rfl
@[simp] theorem State.afterBytes_emitted (k : Nat) (r : Bit) (s : State) : (s.afterBytes k r).emitted = s.emitted ++ packedPrefix s.q k := rfl

/-! ### The answers -/

@[simp] theorem State.drainPass_answer (s : State) : s.drainPass.1 = s.nextAnswer := rfl

/-! ### offer: the capacity check of R81 -/

theorem State.offer_of_full {b : Bit} {s : State} (h : s.cfg.maxBits ≤ s.q.length) : s.offer b = s := by
  simp [State.offer, State.saturated, h]

theorem State.offer_of_room {b : Bit} {s : State} (h : s.q.length < s.cfg.maxBits) : s.offer b = s.qPush b := by
  simp [State.offer, State.saturated, Nat.not_le.mpr h]

/-- R80, R81: what the queue is after a bit was offered. -/
theorem State.offer_q (b : Bit) (s : State) :
    (s.offer b).q = if s.q.length < s.cfg.maxBits then s.q ++ [b] else s.q := by
  by_cases h : s.q.length < s.cfg.maxBits
  · simp [State.offer_of_room h, h]
  · simp [State.offer_of_full (Nat.not_lt.mp h), h]

@[simp] theorem State.offer_reading (b : Bit) (s : State) : (s.offer b).reading = s.reading := by
  unfold State.offer; split <;> rfl

@[simp] theorem State.offer_halted (b : Bit) (s : State) : (s.offer b).halted = s.halted := by
  unfold State.offer; split <;> rfl

@[simp] theorem State.offer_cfg (b : Bit) (s : State) : (s.offer b).cfg = s.cfg := by
  unfold State.offer; split <;> rfl

@[simp] theorem State.offer_inputs (b : Bit) (s : State) : (s.offer b).inputs = s.inputs := by
  unfold State.offer; split <;> rfl

@[simp] theorem State.offer_answers (b : Bit) (s : State) : (s.offer b).answers = s.answers := by
  unfold State.offer; split <;> rfl

@[simp] theorem State.offer_answersRead (b : Bit) (s : State) : (s.offer b).answersRead = s.answersRead := by
  unfold State.offer; split <;> rfl

@[simp] theorem State.offer_emitted (b : Bit) (s : State) : (s.offer b).emitted = s.emitted := by
  unfold State.offer; split <;> rfl

end Sys2Proof.Machine
end

