-- ==== Sys2Proof/Laws/Drain.lean ====
section
/-! SUPPORT. What DRAIN can do, said once (R93, R94): the callers cite these lemmas and do not unfold the loop. -/

namespace Sys2Proof.Machine

theorem State.nextAnswer_eq (s : State) : s.nextAnswer = s.answerAt 0 := by
  unfold State.nextAnswer State.answerAt
  cases s.answers <;> simp

/-- Of two answers in a row, the second is the first once a byte went out (R16). -/
theorem State.drainPass_answerAt (s : State) (k : Nat) : s.drainPass.2.answerAt k = s.answerAt (k + 1) := by
  unfold State.answerAt
  have h : s.answersRead + 1 + k = s.answersRead + (k + 1) := by omega
  cases hs : s.answers <;> simp [hs, h]

@[simp] theorem packedPrefix_length (Q : List Bit) (k : Nat) : (packedPrefix Q k).length = k := by
  simp [packedPrefix]

theorem packedPrefix_succ (Q : List Bit) (k : Nat) :
    packedPrefix Q (k + 1) = pack (Q.take 8) :: packedPrefix (Q.drop 8) k := by
  simp [packedPrefix, List.range_succ_eq_map, List.drop_drop, Nat.mul_add, Nat.add_comm, Function.comp_def]

/-- No byte: only the Reading flag is set. -/
theorem State.afterBytes_zero (s : State) (r : Bit) : s.afterBytes 0 r = { s with reading := r } := by
  simp [State.afterBytes, packedPrefix]

/-- One byte more is one pass first. -/
theorem State.afterBytes_succ (s : State) (k : Nat) (r : Bit) :
    s.afterBytes (k + 1) r = s.drainPass.2.afterBytes k r := by
  have h : s.answersRead + (k + 1) = s.answersRead + 1 + k := by omega
  cases hs : s.answers <;>
    simp [State.afterBytes, packedPrefix_succ, hs, h, Nat.mul_add, Nat.add_comm, List.drop_drop]

/-- R94: all the loop can do in `n` passes over a queue of at least `8n` bits: send `n` bytes, all answered 1, or send
`k ≤ n` of them, the last answered 0 and no earlier one, and clear the Reading flag. -/
theorem State.drainPasses_cases (n : Nat) (s : State) (h : 8 * n ≤ s.q.length) :
    ((∀ i < n, s.answerAt i = true) ∧ State.drainPasses n s = s.afterBytes n s.reading) ∨
    (∃ k < n, (∀ i < k, s.answerAt i = true) ∧ s.answerAt k = false ∧
      State.drainPasses n s = s.afterBytes (k + 1) false) := by
  induction n generalizing s with
  | zero => exact .inl ⟨by simp, by simp [State.drainPasses, State.afterBytes_zero]⟩
  | succ n ih =>
    have h8 : ¬ s.q.length < 8 := by omega
    by_cases ha : s.answerAt 0 = true
    · have hstep : State.drainPasses (n + 1) s = State.drainPasses n s.drainPass.2 := by
        simp [State.drainPasses, h8, State.nextAnswer_eq, ha]
      have up : ∀ k, (∀ i < k, s.drainPass.2.answerAt i = true) → ∀ i < k + 1, s.answerAt i = true := by
        intro k hk i hi
        cases i with
        | zero => exact ha
        | succ i => rw [← State.drainPass_answerAt]; exact hk i (by omega)
      rcases ih s.drainPass.2 (by simp; omega) with ⟨hall, he⟩ | ⟨k, hk, hall, hstop, he⟩
      · exact .inl ⟨up n hall, by rw [hstep, he, State.afterBytes_succ, State.drainPass_reading]⟩
      · refine .inr ⟨k + 1, by omega, up k hall, ?_, by rw [hstep, he, ← State.afterBytes_succ]⟩
        rw [← State.drainPass_answerAt]; exact hstop
    · have ha' : s.answerAt 0 = false := by simpa using ha
      refine .inr ⟨0, by omega, by simp, ha', ?_⟩
      rw [State.afterBytes_succ, State.afterBytes_zero]
      simp [State.drainPasses, h8, State.nextAnswer_eq, ha']

/-- R94, R97: all DRAIN can do. -/
theorem State.drain_cases (s : State) :
    ((∀ i < s.q.length / 8, s.answerAt i = true) ∧ s.drain = s.afterBytes (s.q.length / 8) s.reading) ∨
    (∃ k < s.q.length / 8, (∀ i < k, s.answerAt i = true) ∧ s.answerAt k = false ∧
      s.drain = s.afterBytes (k + 1) false) :=
  State.drainPasses_cases _ s (by omega)

/-- R92: with fewer than 8 bits queued, DRAIN makes no pass. -/
theorem State.drain_of_short {s : State} (h : s.q.length < 8) : s.drain = s := by
  have h0 : s.q.length / 8 = 0 := by omega
  simp [State.drain, h0, State.drainPasses]

/-- In short: DRAIN sends some `k` bytes, and leaves `reading = 1` only with fewer than 8 bits queued. -/
theorem State.drain_afterBytes (s : State) :
    ∃ k r, s.drain = s.afterBytes k r ∧ 8 * k ≤ s.q.length ∧ (r = true → s.reading = true ∧ s.q.length < 8 * k + 8) := by
  rcases s.drain_cases with ⟨-, he⟩ | ⟨k, hk, -, -, he⟩
  · exact ⟨_, _, he, by omega, fun hr => ⟨hr, by omega⟩⟩
  · exact ⟨_, _, he, by omega, by simp⟩

@[simp] theorem State.drain_cfg (s : State) : s.drain.cfg = s.cfg := by
  obtain ⟨k, r, he, -⟩ := s.drain_afterBytes
  simp [he]

@[simp] theorem State.drain_halted (s : State) : s.drain.halted = s.halted := by
  obtain ⟨k, r, he, -⟩ := s.drain_afterBytes
  simp [he]

@[simp] theorem State.drain_inputs (s : State) : s.drain.inputs = s.inputs := by
  obtain ⟨k, r, he, -⟩ := s.drain_afterBytes
  simp [he]

end Sys2Proof.Machine
end

