-- ==== Sys2Proof/Laws/Step.lean ====
section
/-! SUPPORT. What the meanings and one transaction can do, said once. -/

namespace Sys2Proof.Machine

/-! ### The meanings -/

/-- R121: while halted, every command leaves the state as it is. -/
theorem exec_of_halted {s : State} (h : s.halted = true) (i : Instr) : exec i s = .next s := by
  cases i <;> simp [exec, execNop, execIngest, execReqmore, execTerm, h]

/-- What each command does while `halted = 0`. -/
theorem exec_of_running {s : State} (h : s.halted = false) (i : Instr) :
    exec i s = .next
      (match i with
        | .nop => s
        | .ingest b => (s.offer b).drainIfReading
        | .reqmore => s.startReading.drain
        | .term => s.terminate) := by
  cases i <;> simp [exec, execNop, execIngest, execReqmore, execTerm, h]

/-- R142: every command is legal in every state. -/
theorem exec_next (i : Instr) (s : State) : ∃ t, exec i s = .next t := by
  cases h : s.halted
  · exact ⟨_, exec_of_running h i⟩
  · exact ⟨s, exec_of_halted h i⟩

/-- All a command can do: nothing; TERM; or, after INGEST's offer or REQMORE's flag write made `u` of the state, send `k`
bytes of `u`. -/
theorem exec_cases {i : Instr} {s t : State} (h : exec i s = .next t) :
    t = s ∨ (i = .term ∧ s.halted = false ∧ t = s.terminate) ∨
    (∃ b, i = .ingest b ∧ s.halted = false ∧ s.reading = false ∧ t = s.offer b) ∨
    (∃ b, i = .ingest b ∧ s.halted = false ∧ s.reading = true ∧ t = (s.offer b).drain) ∨
    (i = .reqmore ∧ s.halted = false ∧ t = s.startReading.drain) := by
  cases hh : s.halted
  · rw [exec_of_running hh] at h
    injection h with h
    subst h
    cases i with
    | nop => exact .inl rfl
    | ingest b =>
      cases hr : s.reading
      · exact .inr (.inr (.inl ⟨b, rfl, rfl, rfl, by simp [State.drainIfReading, hr]⟩))
      · exact .inr (.inr (.inr (.inl ⟨b, rfl, rfl, rfl, by simp [State.drainIfReading, hr]⟩)))
    | reqmore => exact .inr (.inr (.inr (.inr ⟨rfl, rfl, rfl⟩)))
    | term => exact .inr (.inl ⟨rfl, rfl, rfl⟩)
  · rw [exec_of_halted hh] at h
    injection h with h
    exact .inl h.symm

/-! ### The command port -/

/-- The five cases of the pins (R143, R161, R67, R66), the whole of `fetch`. -/
theorem State.fetch_cases (s : State) :
    (s.cfg.maxBits < s.q.length ∧ s.fetch = .fault .capacityInvariant) ∨
    (s.CapacityKept ∧ s.port.rst = true ∧ s.fetch = .next (none, s.advance.resetEvent)) ∨
    (s.CapacityKept ∧ s.port.rst = false ∧ s.port.cmdValid = false ∧ s.fetch = .next (none, s.advance)) ∨
    (s.CapacityKept ∧ s.port.rst = false ∧ s.port.cmdValid = true ∧
      ∃ i, decode s.port.cmd = .ok i ∧ s.fetch = .next (some i, s.advance)) ∨
    (s.CapacityKept ∧ s.port.rst = false ∧ s.port.cmdValid = true ∧
      ∃ w, decode s.port.cmd = .error (.reservedCommand w) ∧ s.fetch = .refused (.reservedCommand w)) := by
  by_cases hc : s.q.length ≤ s.cfg.maxBits
  · refine .inr ?_
    have hc' : s.withinCapacity = true := by simp [State.withinCapacity, hc]
    cases hr : s.port.rst
    · refine .inr ?_
      cases hv : s.port.cmdValid
      · exact .inl ⟨hc, rfl, rfl, by simp [State.fetch, hc', hr, hv]⟩
      · refine .inr ?_
        rcases hd : decode s.port.cmd with ⟨⟨w⟩⟩ | i
        · exact .inr ⟨hc, rfl, rfl, w, rfl, by simp [State.fetch, hc', hr, hv, hd]⟩
        · exact .inl ⟨hc, rfl, rfl, i, rfl, by simp [State.fetch, hc', hr, hv, hd]⟩
    · exact .inl ⟨hc, rfl, by simp [State.fetch, hc', hr]⟩
  · exact .inl ⟨Nat.not_le.mp hc, by simp [State.fetch, State.withinCapacity, hc]⟩

/-- All one transaction can do when it answers a next state: reset, nothing taken, or one command. -/
theorem step_cases {s t : State} (h : step s = .next t) :
    (s.port.rst = true ∧ t = s.advance.resetEvent) ∨
    (s.port.rst = false ∧ s.port.cmdValid = false ∧ t = s.advance) ∨
    (s.port.rst = false ∧ s.port.cmdValid = true ∧ ∃ i, decode s.port.cmd = .ok i ∧ exec i s.advance = .next t) := by
  rcases s.fetch_cases with ⟨-, hf⟩ | ⟨-, hr, hf⟩ | ⟨-, hr, hv, hf⟩ | ⟨-, hr, hv, i, hd, hf⟩ | ⟨-, hr, hv, w, hd, hf⟩ <;>
    simp only [step, hf] at h
  · cases h
  · injection h with h
    exact .inl ⟨hr, h.symm⟩
  · injection h with h
    exact .inr (.inl ⟨hr, hv, h.symm⟩)
  · exact .inr (.inr ⟨hr, hv, i, hd, h⟩)
  · cases h

/-! ### Runs -/

/-- One step of the host's run, by what the step answers. -/
theorem run_succ_of_next {M : Host.Core} {s t : M.State} (k : Nat) (h : M.step s = .next t) :
    M.run (k + 1) s = M.run k t := by
  simp [Host.Core.run, h]

theorem run_succ_of_fault {M : Host.Core} {s : M.State} {r : M.Fault} (k : Nat) (h : M.step s = .fault r) :
    M.run (k + 1) s = .fault r := by
  simp [Host.Core.run, h]

theorem run_succ_of_refused {M : Host.Core} {s : M.State} {r : M.Refusal} (k : Nat) (h : M.step s = .refused r) :
    M.run (k + 1) s = .refused r := by
  simp [Host.Core.run, h]

/-- `steps` is the host's run of the core. -/
theorem steps_eq_run (k : Nat) (s : State) : steps k s = Host.Core.run Sys2Proof.core k s := by
  induction k generalizing s with
  | zero => rfl
  | succ k ih =>
    cases h : step s with
    | next t =>
      have hs : steps (k + 1) s = steps k t := by simp [steps, h]
      exact hs.trans ((ih t).trans (run_succ_of_next (M := Sys2Proof.core) k h).symm)
    | fault r =>
      have hs : steps (k + 1) s = .fault r := by simp [steps, h]
      exact hs.trans ((run_succ_of_fault (M := Sys2Proof.core) k h).symm)
    | refused r =>
      have hs : steps (k + 1) s = .refused r := by simp [steps, h]
      exact hs.trans ((run_succ_of_refused (M := Sys2Proof.core) k h).symm)

/-- A run of `k + 1` transactions that answers a state is one transaction and then a run of `k`. -/
theorem steps_succ_next {k : Nat} {s u : State} (h : steps (k + 1) s = .next u) :
    ∃ t, step s = .next t ∧ steps k t = .next u := by
  unfold steps at h
  cases hs : step s with
  | next t => exact ⟨t, rfl, by simpa [hs] using h⟩
  | fault r => simp [hs] at h
  | refused r => simp [hs] at h

end Sys2Proof.Machine
end

