-- ==== Sys2Proof/Laws/Cycle.lean ====
section
/-! SUPPORT. What one clock edge of the cycle-level block can do (R171), and how it meets the transaction's meaning. -/

namespace Sys2Proof.Machine

/-- R171: the clock in which a command that does not drain is taken does all of it. -/
theorem exec_of_phaseAfter_idle {i : Instr} {s : State} (h : s.phaseAfter i = .idle) :
    exec i s = .next (s.commandEdge i) := by
  cases hh : s.halted
  · rw [exec_of_running hh]
    cases i with
    | nop => simp [State.commandEdge, hh]
    | ingest b =>
      have ce : s.commandEdge (.ingest b) = s.offer b := by simp [State.commandEdge, hh]
      cases hr : s.reading
      · simp [ce, State.drainIfReading, hr]
      · have hq : (s.offer b).q.length < 8 := by
          simpa [State.phaseAfter, hh, Instr.entersDrain, ce, State.idle, hr] using h
        simp [ce, State.drainIfReading, hr, State.drain_of_short hq]
    | reqmore =>
      have ce : s.commandEdge .reqmore = s.startReading := by simp [State.commandEdge, hh]
      have hq : s.q.length < 8 := by
        simpa [State.phaseAfter, hh, Instr.entersDrain, ce, State.idle] using h
      simp [ce, State.drain_of_short (s := s.startReading) (by simpa using hq)]
    | term => simp [State.commandEdge, hh]
  · simp [exec_of_halted hh, State.commandEdge, hh]

/-- R101, R171: the clock in which a command that drains is taken leaves DRAIN to do, over 8 bits or more, reading. -/
theorem exec_of_phaseAfter_draining {i : Instr} {s : State} (h : s.phaseAfter i = .draining) :
    exec i s = .next (s.commandEdge i).drain ∧ (s.commandEdge i).reading = true ∧ 8 ≤ (s.commandEdge i).q.length := by
  cases hh : s.halted
  · have hidle : (s.commandEdge i).idle = false := by
      cases hi : (s.commandEdge i).idle
      · rfl
      · simp [State.phaseAfter, hi] at h
    have hq : (s.commandEdge i).reading = true ∧ 8 ≤ (s.commandEdge i).q.length := by
      simpa [State.idle] using hidle
    refine ⟨?_, hq⟩
    rw [exec_of_running hh]
    cases i with
    | nop => simp [State.phaseAfter, Instr.entersDrain] at h
    | ingest b =>
      have ce : s.commandEdge (.ingest b) = s.offer b := by simp [State.commandEdge, hh]
      have hr : s.reading = true := by simpa [ce] using hq.1
      simp [ce, State.drainIfReading, hr]
    | reqmore => simp [State.commandEdge, hh]
    | term => simp [State.phaseAfter, Instr.entersDrain] at h
  · simp [State.phaseAfter, hh] at h

@[simp] theorem State.commandEdge_emitted (i : Instr) (s : State) : (s.commandEdge i).emitted = s.emitted := by
  unfold State.commandEdge; split
  · rfl
  · cases i <;> simp

@[simp] theorem State.commandEdge_cfg (i : Instr) (s : State) : (s.commandEdge i).cfg = s.cfg := by
  unfold State.commandEdge; split
  · rfl
  · cases i <;> simp

/-- All one clock edge can do when it answers a next state: reset, one byte of a drain, nothing presented, or a command
taken in Idle. -/
theorem Cycle.clock_cases {p : PortIn} {c d : Cycle} (h : c.clock p = .next d) :
    (p.rst = true ∧ d.phase = .idle ∧ d.block.q = [] ∧ d.block.reading = false ∧ d.block.halted = false) ∨
    (p.rst = false ∧ c.phase = .draining ∧ d = c.block.drainClock) ∨
    (p.rst = false ∧ c.phase = .idle ∧ p.cmdValid = false ∧ d = c) ∨
    (p.rst = false ∧ c.phase = .idle ∧ p.cmdValid = true ∧
      ∃ i, decode p.cmd = .ok i ∧ d = { block := c.block.commandEdge i, phase := c.block.phaseAfter i }) := by
  unfold Cycle.clock at h
  split at h
  · cases h
  · cases hph : c.phase <;> cases hr : p.rst <;> simp only [hph, hr] at h
    · simp only [Bool.false_eq_true, if_false, Cycle.takeCommand] at h
      cases hv : p.cmdValid <;> simp only [hv] at h
      · injection h with h
        exact .inr (.inr (.inl ⟨rfl, rfl, rfl, h.symm⟩))
      · rcases hd : decode p.cmd with ⟨⟨w⟩⟩ | i
        · simp [hd] at h
        · simp only [hd] at h
          injection h with h
          exact .inr (.inr (.inr ⟨rfl, rfl, rfl, i, rfl, h.symm⟩))
    · injection h with h
      subst h
      exact .inl ⟨rfl, rfl, rfl, rfl, rfl⟩
    · injection h with h
      exact .inr (.inl ⟨rfl, rfl, h.symm⟩)
    · injection h with h
      subst h
      exact .inl ⟨rfl, rfl, rfl, rfl, rfl⟩

end Sys2Proof.Machine
end

