-- ==== Sys2Proof/Laws/Packing.lean ====
section
/-! SUPPORT. The bits of a packed byte are the bits it was packed from (R12, R44). -/

namespace Sys2Proof.Machine

@[simp] theorem bits_length (v : Byte) : (bits v).length = 8 := by simp [bits]

theorem bits_pack_cons :
    ∀ b0 b1 b2 b3 b4 b5 b6 b7 : Bit, bits (pack [b0, b1, b2, b3, b4, b5, b6, b7]) = [b0, b1, b2, b3, b4, b5, b6, b7] := by
  decide

/-- Packing 8 bits loses none of them and keeps their order. -/
theorem bits_pack {B : List Bit} (h : B.length = 8) : bits (pack B) = B := by
  match B, h with
  | [_, _, _, _, _, _, _, _], _ => exact bits_pack_cons ..

/-- The bits of the first `k` bytes of a queue that long are its first `8k` bits. -/
theorem bits_packedPrefix (k : Nat) (Q : List Bit) (h : 8 * k ≤ Q.length) :
    (packedPrefix Q k).flatMap bits = Q.take (8 * k) := by
  induction k generalizing Q with
  | zero => simp [packedPrefix]
  | succ k ih =>
    rw [packedPrefix_succ, List.flatMap_cons, bits_pack (by simp; omega), ih _ (by simp; omega), Nat.mul_add,
      Nat.add_comm, List.take_add]

theorem flatMap_bits_length (bs : List Byte) : (bs.flatMap bits).length = 8 * bs.length := by
  induction bs with
  | nil => rfl
  | cons v bs ih => rw [List.flatMap_cons, List.length_append, ih, bits_length, List.length_cons]; omega

end Sys2Proof.Machine
end

