-- ==== Sys2Proof/Laws/PerInstr.lean ====
section
/-! SUPPORT. Statements made of every command, one lemma per constructor. -/

namespace Sys2Proof.Laws

/-- R63, R64: the word of a command has the command's fields, and they are well formed. -/
def CommandFields.Statement (i : Instr) : Prop :=
  Cmd.fields (encode i) = i.fields ∧ i.wellFormed = true

theorem CommandFields.nop : CommandFields.Statement .nop := ⟨by decide, by decide⟩

theorem CommandFields.ingest (b : Bit) : CommandFields.Statement (.ingest b) := by
  cases b <;> exact ⟨by decide, by decide⟩

theorem CommandFields.reqmore : CommandFields.Statement .reqmore := ⟨by decide, by decide⟩

theorem CommandFields.term : CommandFields.Statement .term := ⟨by decide, by decide⟩

end Sys2Proof.Laws
end

