-- ==== Sys2Proof/Tests/Slice0.lean ====
section
/-! SUPPORT. Tests of the model, with results taken from spec/95_test_vectors.md or from the rule named, and for every
statement with hypotheses a concrete state and operands that meet them. -/

namespace Sys2Proof.Tests

open Sys2Proof Sys2Proof.Machine

/-- The state written `(Q, reading, halted)` in 95_test_vectors.md, with the consumer's answers `A` to come. -/
def block (maxBits : Nat) (Q : List Bit) (r h : Bit) (A : List Bit) : State :=
  { State.resetWith { maxBits := maxBits } with q := Q, reading := r, halted := h, answers := A }

/-- `s` with the pins showing `ps`, one transaction after another. -/
def presenting (ps : List PortIn) (s : State) : State :=
  { s with inputs := ps }

/-- `Q`, `reading`, `halted` and the bytes emitted, if a state was answered. -/
def seen : Host.Outcome State Fault Refusal → Option (List Bit × Bit × Bit × List Byte)
  | .next t => some (t.q, t.reading, t.halted, t.emitted)
  | .fault _ => none
  | .refused _ => none

/-! ### Words written out from the spec's encoding (R63, R64) -/

theorem test_decode_nop : decode 0b000#3 = .ok .nop := rfl
theorem test_decode_ingest_0 : decode 0b010#3 = .ok (.ingest false) := rfl
theorem test_decode_ingest_1 : decode 0b011#3 = .ok (.ingest true) := rfl
theorem test_decode_reqmore : decode 0b100#3 = .ok .reqmore := rfl
theorem test_decode_term : decode 0b110#3 = .ok .term := rfl

/-- R66: the three reserved words. -/
theorem test_decode_reserved :
    decode 0b001#3 = .error (.reservedCommand 0b001#3) ∧ decode 0b101#3 = .error (.reservedCommand 0b101#3) ∧
      decode 0b111#3 = .error (.reservedCommand 0b111#3) := ⟨rfl, rfl, rfl⟩

/-- R64: match and mask leave no word to two rows. -/
theorem test_rows_do_not_overlap :
    ∀ w : Cmd,
      ([Cmd.matches w 0b111#3 0b000#3, Cmd.matches w 0b110#3 0b010#3, Cmd.matches w 0b111#3 0b100#3,
        Cmd.matches w 0b111#3 0b110#3].filter id).length ≤ 1 := by decide

/-- The table's INGEST row with `b = 1`, as the host numbers its bits. -/
theorem test_decodeTableWord_ingest : decodeTableWord 8 3 = some (.ingest true) := by decide

/-- R63: `b` must be 0 for NOP, REQMORE and TERM: the smoke test of the one check, an ill-formed term for each. -/
theorem test_illFormed_refused :
    Cmd3.wellFormed { op := 0b00#2, b := 0b1#1 } = false ∧ Cmd3.wellFormed { op := 0b10#2, b := 0b1#1 } = false ∧
      Cmd3.wellFormed { op := 0b11#2, b := 0b1#1 } = false ∧ Cmd3.wellFormed { op := 0b01#2, b := 0b1#1 } = true := by
  decide

/-! ### One step each (95_test_vectors.md) -/

/-- Vector N2: no drain even with 8 bits queued. -/
theorem test_nop_does_not_drain :
    seen (exec .nop (block 1024 (bits 0xAA) false false [])) = some (bits 0xAA, false, false, []) := by decide

/-- Vector I3: the paused byte is delivered. -/
theorem test_ingest_paused_byte_is_delivered :
    seen (exec (.ingest true) (block 1024 [true, false, false, false, false, false, false] true false [false])) =
      some ([], false, false, [0x81]) := by decide

/-- Vector I11: dropped at capacity. -/
theorem test_ingest_drops_at_capacity :
    seen (exec (.ingest false) (block 8 (bits 0x55) false false [])) = some (bits 0x55, false, false, []) := by decide

/-- Vector D4: two bytes, a pause at the second, four bits left. -/
theorem test_reqmore_pauses_after_the_second_byte :
    seen (exec .reqmore (block 1024 (bits 0x0F ++ bits 0xF0 ++ [true, false, true, true]) false false [true, false])) =
      some ([true, false, true, true], false, false, [0x0F, 0xF0]) := by decide

/-- Vector D2: seven bits stay, `reading` becomes 1. -/
theorem test_reqmore_on_seven_bits :
    seen (exec .reqmore (block 1024 [true, false, true, true, false, false, true] false false [])) =
      some ([true, false, true, true, false, false, true], true, false, []) := by decide

/-- Vector T2: queued whole bytes are lost. -/
theorem test_term_does_not_drain :
    seen (exec .term (block 1024 (bits 0xAA ++ bits 0x55) false false [true, true])) =
      some ([], false, true, []) := by decide

/-- Vector T4: absorbed while halted. -/
theorem test_halted_absorbs_ingest :
    seen (exec (.ingest true) (block 1024 [] false true [])) = some ([], false, true, []) := by decide

/-- Vector X2: a reserved word is refused while halted. -/
theorem test_reserved_refused_while_halted :
    step (presenting [PortIn.word 0b111#3] (block 1024 [] false true [])) = .refused (.reservedCommand 0b111#3) := rfl

/-- 95_test_vectors.md section 2.7: reset from any state, with a command beside it (R161). -/
theorem test_reset_wins :
    seen (step (presenting [{ rst := true, cmdValid := true, cmd := 0b011#3 }] (block 1024 [true, true] false true []))) =
      some ([], false, false, []) := by decide

/-- Vectors S5 and S6: STATUS 0x2 at capacity 0 after reset, 0x52 with 10 bits at capacity 10. -/
theorem test_status_words :
    (block 0 [] false false []).status.toNat = 0x2 ∧
      (block 10 [true, true, false, false, true, false, true, false, true, true] false false []).status.toNat = 0x52 := by
  decide

/-- 95_test_vectors.md section 2.1: the oldest bit is the MSB; a LIFO packer would swap the first two. -/
theorem test_pack :
    pack [false, false, false, false, false, false, false, true] = 0x01 ∧
      pack [true, false, false, false, false, false, false, false] = 0x80 ∧
      pack [true, true, false, false, true, false, true, false] = 0xCA := by decide

/-- Program P4: `bits(0x5A) = [0,1,0,1,1,0,1,0]`, and FEED8 presents it in that order. -/
theorem test_feed8 :
    (AsmCommand.feed8 0x5A).samples.map PortIn.cmd = [0b010#3, 0b011#3, 0b010#3, 0b011#3, 0b011#3, 0b010#3, 0b011#3, 0b010#3] := by
  decide

/-- Lines of programs P2 and P3. -/
theorem test_parseLine :
    parseLine "FEED8 0x0F       ; 010 010".toList = some (.item (.feed8 0x0F)) ∧
      parseLine "; accept: 1,0".toList = some (.accept [true, false]) ∧
      parseLine "INGEST 1         ; 011".toList = some (.item (.command (.ingest true))) ∧
      parseLine "INGEST 2".toList = none := by decide

/-- Program P2, its two lines after the FEED8s: emits 0x0F and 0xF0, then pauses. -/
theorem test_accept_line :
    seen (runProgram [.accept [true, false], .item (.command .reqmore)] none
      (block 1024 (bits 0x0F ++ bits 0xF0 ++ bits 0x3C) false false [])) =
      some (bits 0x3C, false, false, [0x0F, 0xF0]) := by decide

/-- R171, R101: the clock that takes a REQMORE over 8 bits leads to Draining, with the byte on the port. -/
theorem test_cycle_reqmore :
    Cycle.clock (PortIn.word 0b100#3) { block := block 1024 (bits 0xC3) false false [true], phase := .idle } =
      .next { block := block 1024 (bits 0xC3) true false [true], phase := .draining } := rfl

/-! ### Witnesses: the hypotheses of every statement can be met -/

theorem witness_EncodeOfDecodeIsTheWord : ∃ (w : Cmd) (i : Instr), decode w = .ok i := ⟨0b011#3, .ingest true, rfl⟩

/-- All three words, running and halted. -/
theorem witness_ReservedWordIsRefusedForGood :
    ∀ w ∈ [0b001#3, 0b101#3, 0b111#3], ∀ h : Bit,
      (presenting [PortIn.word w] (block 4 [true, true, true, true] false h [])).CapacityKept ∧
      (presenting [PortIn.word w] (block 4 [true, true, true, true] false h [])).port.rst = false ∧
      (presenting [PortIn.word w] (block 4 [true, true, true, true] false h [])).port.cmdValid = true ∧
      (presenting [PortIn.word w] (block 4 [true, true, true, true] false h [])).port.cmd = w := by decide

theorem witness_StepRunsTheDecodedCommand :
    let s := presenting [PortIn.word 0b110#3] (block 4 [true] true false [])
    s.CapacityKept ∧ s.port.rst = false ∧ s.port.cmdValid = true ∧ decode s.port.cmd = .ok .term :=
  ⟨by decide, rfl, rfl, rfl⟩

/-- Nothing left to present, and `cmd_valid = 0` beside a reserved word. -/
theorem witness_NothingPresentedTakesNoCommand :
    let s := block 0 [] false false []
    let t := presenting [{ rst := false, cmdValid := false, cmd := 0b101#3 }] s
    (s.CapacityKept ∧ s.inputs = []) ∧ (t.CapacityKept ∧ t.port.rst = false ∧ t.port.cmdValid = false) := by decide

theorem witness_ResetEventWinsAndClearsTheBlock :
    let s := presenting [{ rst := true, cmdValid := true, cmd := 0b111#3 }] (block 1 [true] false false [])
    s.CapacityKept ∧ s.port.rst = true := by decide

/-- One bit past the capacity; and exactly at it, with a step that answers a state. -/
theorem witness_OverfullQueueFaultsForGood :
    (block 1 [true, true] false false []).cfg.maxBits < (block 1 [true, true] false false []).q.length ∧
      (block 1 [true] false false []).CapacityKept ∧
      step (block 1 [true] false false []) = .next (block 1 [true] false false []) := ⟨by decide, by decide, rfl⟩

/-- Halted; not reading with room for one bit, and with none; reading with every answer 1; reading with answers 1 and 0. -/
theorem witness_IngestExactResult :
    (block 4 [] false true []).halted = true ∧
      ((block 4 [true, true, true] false false []).halted = false ∧
        (block 4 [true, true, true] false false []).reading = false) ∧
      ((block 4 [true, true, true, true] false false []).halted = false ∧
        (block 4 [true, true, true, true] false false []).reading = false) ∧
      (let t := block 1024 (bits 0x12 ++ bits 0x34) true false [true, true]
       t.halted = false ∧ t.reading = true ∧ ∀ i < t.q.length / 8, t.answerAt i = true) ∧
      (let t := block 1024 (bits 0x12 ++ bits 0x34) true false [true, false]
       t.halted = false ∧ t.reading = true ∧ 1 < t.q.length / 8 ∧ (∀ i < 1, t.answerAt i = true) ∧
         t.answerAt 1 = false) := by decide

/-- Seven bits at capacity 8, and at capacity 7. -/
theorem witness_IngestEmitsAtMostOneByte :
    (let s := block 8 [true, false, true, false, true, false, true] true false [true]
     s.DrainedWhileReading ∧ s.halted = false ∧ s.reading = true ∧ s.q.length = 7 ∧ 8 ≤ s.cfg.maxBits) ∧
    (let s := block 7 [true, false, true, false, true, false, true] true false [true]
     s.DrainedWhileReading ∧
       ¬ (s.halted = false ∧ s.reading = true ∧ s.q.length = 7 ∧ 8 ≤ s.cfg.maxBits)) := by decide

/-- Exactly full, reading (vector I7). -/
theorem witness_DroppedBitLeavesNoTrace :
    let s := block 4 [true, true, false, false] true false []
    s.DrainedWhileReading ∧ s.cfg.maxBits ≤ s.q.length := by decide

/-- W6: five bits offered at capacity 4. -/
theorem witness_QueueKeepsTheFirstBitsIngested :
    let bs := [true, true, false, false, true]
    let s := presenting ((bs.map fun b => PortIn.word (encode (.ingest b))) ++ [PortIn.reset]) (block 4 [] false false [])
    s.CapacityKept ∧ s.halted = false ∧ s.reading = false ∧
      s.inputs = (bs.map fun b => PortIn.word (encode (.ingest b))) ++ [PortIn.reset] := by decide

/-- Seven bits; eight with the answer 0 (vector D11's second byte), and with the answer 1. -/
theorem witness_DrainIsTheLoopOfTheRule :
    (let s := block 1024 [true, true, true, true, true, true, true] true false []
     s.reading = true ∧ s.q.length < 8) ∧
    (let s := block 1024 (bits 0x80) true false [false]
     s.reading = true ∧ 8 ≤ s.q.length ∧ s.nextAnswer = false) ∧
    (let s := block 1024 (bits 0x80) true false [true]
     s.reading = true ∧ 8 ≤ s.q.length ∧ s.nextAnswer = true) := by decide

/-- Vector D3, and the pause of vector D4. -/
theorem witness_ReqmoreExactResult :
    (let s := block 1024 (bits 0xFF ++ bits 0x00) false false [true, true]
     s.halted = false ∧ ∀ i < s.q.length / 8, s.answerAt i = true) ∧
    (let s := block 1024 (bits 0x0F ++ bits 0xF0 ++ [true, false, true, true]) false false [true, false]
     s.halted = false ∧ 1 < s.q.length / 8 ∧ (∀ i < 1, s.answerAt i = true) ∧ s.answerAt 1 = false) := by decide

/-- Seven bits, the most of the range. -/
theorem witness_PullOnAShortQueueOnlySetsReading :
    let s := block 1024 [true, false, true, true, false, false, true] false false []
    s.q.length < 8 ∧ s.halted = false := by decide

theorem witness_DrainPassesAreBounded : (block 8 (bits 0xAA) true false []).CapacityKept := by decide

theorem witness_TermDiscardsAllPendingState :
    (block 4 [true] true false []).halted = false ∧ (block 4 [] false true []).halted = true := by decide

/-- A reserved word while halted; and the reset that clears `halted`. -/
theorem witness_HaltedAbsorbsEveryCommand :
    (let s := presenting [PortIn.word 0b101#3] (block 4 [] false true [])
     s.halted = true ∧ s.CapacityKept ∧ s.port.rst = false ∧ s.port.cmdValid = true ∧
       decode s.port.cmd = .error (.reservedCommand 0b101#3)) ∧
    (let s := presenting [PortIn.reset] (block 4 [] false true [])
     s.halted = true ∧ ∃ t, step s = .next t ∧ t.halted = false) :=
  ⟨⟨rfl, by decide, rfl, rfl, rfl⟩, ⟨rfl, _, rfl, rfl⟩⟩

theorem witness_TermIsFinalUntilReset :
    let s := presenting [PortIn.word 0b011#3, PortIn.word 0b100#3] (block 4 [] false true [])
    s.halted = true ∧ (∀ p ∈ s.inputs.take 2, p.rst = false) ∧ ∃ t, steps 2 s = .next t :=
  ⟨rfl, by decide, _, rfl⟩

/-- A state with the invariant while reading, and a step from it. -/
theorem witness_InvariantKeptByEveryStep :
    let s := presenting [PortIn.word 0b011#3] (block 4 [true, true, true] true false [])
    s.Inv ∧ ∃ t, step s = .next t := ⟨by decide, _, rfl⟩

theorem witness_QuiescentStatesAreIdle :
    let s := presenting [PortIn.word 0b100#3] (block 1024 (bits 0x12) false false [true])
    s.idle = true ∧ ∃ t, step s = .next t ∧ t.reading = true := ⟨by decide, _, rfl, rfl⟩

/-- A full byte waits, and INGEST, an idle transaction and reset go by. -/
theorem witness_NoByteUntilThePull :
    let s := presenting [PortIn.word 0b011#3, PortIn.nothing, PortIn.reset] (block 1024 (bits 0x12) false false [])
    s.reading = false ∧ (∀ p ∈ s.inputs.take 3, p.taken ≠ some .reqmore) ∧ ∃ t, steps 3 s = .next t :=
  ⟨rfl, by decide, _, rfl⟩

theorem witness_LegalInputsNeverStopTheMachine :
    let s := presenting [PortIn.word 0b100#3, PortIn.nothing, PortIn.reset, PortIn.word 0b110#3]
      (block 8 (bits 0x12) true false [])
    s.CapacityKept ∧ ∀ p ∈ s.inputs.take 4, p.legal = true := by decide

/-- The largest capacity of the range, full. -/
theorem witness_SmallCapacityNeverEmits :
    let s := presenting [PortIn.word 0b100#3] (block 7 [true, true, true, true, true, true, true] false false [])
    s.cfg.maxBits < 8 ∧ s.CapacityKept ∧ ∃ t, steps 1 s = .next t := ⟨by decide, by decide, _, rfl⟩

/-- Each command answers a next state; INGEST and NOP with `reading = 0`. -/
theorem witness_FrameOfEveryCommand :
    let s := block 4 [true] false false []
    (∃ t, exec .nop s = .next t) ∧ (∃ t, exec (.ingest true) s = .next t ∧ s.reading = false) ∧
      (∃ t, exec .reqmore s = .next t) ∧ ∃ t, exec .term s = .next t :=
  ⟨⟨_, rfl⟩, ⟨_, rfl, rfl⟩, ⟨_, rfl⟩, ⟨_, rfl⟩⟩

/-- Two bytes out, two answers read (vector D3). -/
theorem witness_EachByteReadsOneAnswer :
    ∃ t, exec .reqmore (block 1024 (bits 0xFF ++ bits 0x00) false false [true, true]) = .next t ∧ t.answersRead = 2 :=
  ⟨_, rfl, rfl⟩

/-- Vector I2: the eighth bit goes out with the other seven. -/
theorem witness_NoBitSkippedOrDuplicated :
    Instr.ingest true ≠ .term ∧
      ∃ t, exec (.ingest true) (block 1024 [true, false, false, false, false, false, false] true false [true]) = .next t ∧
        t.emitted = [0x81] := ⟨by decide, _, rfl, by decide⟩

/-- One byte sent and one bit queued, and an INGEST to come. -/
theorem witness_LedgerStaysBalanced :
    let l : Ledger :=
      { state := presenting [PortIn.word 0b010#3] (block 1024 [true] true false []),
        accepted := bits 0x12 ++ [true], sent := [0x12] }
    l.state.Inv ∧ l.Balanced ∧ ∃ m, l.step = .next m := ⟨by decide, by decide, _, rfl⟩

theorem witness_KthByteIsPackedFromTheKthRunOfBits :
    let s := presenting [PortIn.word 0b011#3, PortIn.word 0b100#3] (block 1024 [] false false [])
    s.Inv ∧ s.q = [] ∧ ∃ l, Ledger.steps 2 (Ledger.open s) = .next l := ⟨by decide, rfl, _, rfl⟩

theorem witness_OutputsDoNotFeedBack :
    ∃ t, exec .reqmore (block 1024 (bits 0xC3) false false [true]) = .next t ∧ t.emitted = [0xC3] :=
  ⟨_, rfl, by decide⟩

/-- NOP, TERM, and REQMORE with seven bits; INGEST with room for exactly two. -/
theorem witness_RepeatingACommand :
    (let s := block 1024 [true, true, true, true, true, true, true] false false []
     (∃ t, exec .nop s = .next t) ∧ (∃ t, exec .term s = .next t) ∧
     s.q.length < 8 ∧ ∃ t, exec .reqmore s = .next t) ∧
    (let s := block 4 [true, true] false false []
     s.halted = false ∧ s.reading = false ∧ s.q.length + 2 ≤ s.cfg.maxBits ∧ ∃ t, exec (.ingest true) s = .next t) :=
  ⟨⟨⟨_, rfl⟩, ⟨_, rfl⟩, by decide, ⟨_, rfl⟩⟩, ⟨rfl, rfl, by decide, ⟨_, rfl⟩⟩⟩

/-- W5: the bits of 170, at the least capacity that can hold a byte. -/
theorem witness_EightBitsWhileReadingEmitTheirByte :
    let s := presenting
      (([true, false, true, false, true, false, true, false].map fun b => PortIn.word (encode (.ingest b))) ++ [])
      (block 8 [] true false [true])
    8 ≤ s.cfg.maxBits ∧ s.halted = false ∧ s.reading = true ∧ s.q = [] ∧ s.nextAnswer = true ∧
      s.inputs =
        ([true, false, true, false, true, false, true, false].map fun b => PortIn.word (encode (.ingest b))) ++ [] := by
  decide

/-- Exactly at the capacity. -/
theorem witness_StatusWordShowsTheState : (block 4 [true, true, false, false] true false []).CapacityKept := by decide

/-- CW at capacity 4 is 3 (program P5): `4 < 2 ^ 3`. -/
theorem witness_CountWidthIsTheLeastWidth : 1 ≤ 3 ∧ 4 < 2 ^ 3 ∧ countWidth 4 = 3 := by decide

/-- A REQMORE that emits two bytes, with two clocks after the first; the pins show a reserved word meanwhile (log entry 6). -/
theorem witness_CycleLevelRefinesTheTransaction :
    let s := block 1024 (bits 0x12 ++ bits 0x34) false false [true, true]
    let pins := [PortIn.word 0b101#3, PortIn.nothing]
    s.CapacityKept ∧ (∀ p ∈ pins, p.rst = false) ∧
      ∃ t, exec .reqmore s = .next t ∧ pins.length + s.emitted.length = t.emitted.length :=
  ⟨by decide, by decide, _, rfl, rfl⟩

/-- The same with one byte out of two. -/
theorem witness_CycleLevelIsBusyUntilTheLastByte :
    let s := block 1024 (bits 0x12 ++ bits 0x34) false false [true, true]
    let pins := [PortIn.word 0b110#3]
    s.CapacityKept ∧ (∀ p ∈ pins, p.rst = false) ∧
      ∃ t, exec .reqmore s = .next t ∧ pins.length + s.emitted.length < t.emitted.length :=
  ⟨by decide, by decide, _, rfl, by decide⟩

theorem witness_CycleLevelResetCutsTheDrainOff :
    let c : Cycle := { block := block 1024 (bits 0x12 ++ bits 0x34) true false [true], phase := .draining }
    c.block.CapacityKept ∧ c.phase = .draining ∧ PortIn.reset.rst = true := by decide

end Sys2Proof.Tests
end

section
/-! SUPPORT. Proofs of the statements about 00_scope.md: one transaction, the answers it reads, bytes and widths. -/

namespace Sys2Proof.Machine

/-! ### The answers a command reads (R16) -/

/-- R93, R96: DRAIN reads one answer for each of the `k` bytes it sends. -/
theorem State.drain_reads_one_answer_per_byte (s : State) :
    ∃ k, s.drain.emitted = s.emitted ++ packedPrefix s.q k ∧ s.drain.answersRead = s.answersRead + k ∧
      s.drain.answers = s.answers.drop k := by
  obtain ⟨k, r, he, -⟩ := s.drain_afterBytes
  exact ⟨k, by simp [he]⟩

/-- Settles O29: only a command that drains sends bytes, and DRAIN reads an answer for each. -/
theorem eachByteReadsOneAnswer : Obligations.EachByteReadsOneAnswer := by
  intro i s t h
  rcases exec_cases h with
    rfl | ⟨-, -, rfl⟩ | ⟨b, -, -, -, rfl⟩ | ⟨b, -, -, -, rfl⟩ | ⟨-, -, rfl⟩
  case inl | inr.inl | inr.inr.inl => exact ⟨[], by simp⟩
  case inr.inr.inr.inl =>
    obtain ⟨k, hk⟩ := (s.offer b).drain_reads_one_answer_per_byte
    exact ⟨packedPrefix (s.offer b).q k, by simpa using hk⟩
  case inr.inr.inr.inr =>
    obtain ⟨k, hk⟩ := s.startReading.drain_reads_one_answer_per_byte
    exact ⟨packedPrefix s.q k, by simpa using hk⟩

/-! ### The width CW (R7) -/

/-- `n` has at most `w` binary digits exactly when it is below `2 ^ w`. -/
theorem binaryDigits_le_iff {fuel n w : Nat} (hn : n ≤ fuel) : binaryDigits fuel n ≤ w ↔ n < 2 ^ w := by
  induction fuel generalizing n w with
  | zero => simp [binaryDigits, Nat.le_zero.mp hn]
  | succ fuel ih =>
    by_cases h0 : n = 0
    · simp [binaryDigits, h0]
    · cases w with
      | zero => simp [binaryDigits, h0]
      | succ w =>
        have half : binaryDigits fuel (n / 2) ≤ w ↔ n / 2 < 2 ^ w := ih (by omega)
        simp only [binaryDigits, h0, if_false, Nat.add_le_add_iff_right, half, Nat.pow_succ]
        omega

theorem one_le_countWidth (n : Nat) : 1 ≤ countWidth n := Nat.le_max_left ..

/-- CW is at most a width exactly when the width holds `MAX_BITS`. -/
theorem countWidth_le_iff {n w : Nat} (hw : 1 ≤ w) : countWidth n ≤ w ↔ n < 2 ^ w := by
  rw [countWidth, Nat.max_le, binaryDigits_le_iff le_rfl, and_iff_right hw]

theorem lt_two_pow_countWidth (n : Nat) : n < 2 ^ countWidth n :=
  (countWidth_le_iff (one_le_countWidth n)).mp le_rfl

/-- Settles O39: the widths that hold `n` are those from CW on. -/
theorem countWidthIsTheLeastWidth : Obligations.CountWidthIsTheLeastWidth := by
  refine ⟨fun n => ⟨lt_two_pow_countWidth n, one_le_countWidth n, fun w hw => (countWidth_le_iff hw).mpr⟩, ?_⟩
  have at_most : countWidth 1024 ≤ 11 := (countWidth_le_iff (by omega)).mpr (by norm_num)
  have above : ¬ countWidth 1024 ≤ 10 := fun h => absurd ((countWidth_le_iff (by omega)).mp h) (by norm_num)
  omega

/-! ### A presented command (R67) -/

/-- R67, R147: with no reset and a valid word that decodes, the command is taken. -/
theorem State.fetch_of_command {s : State} {i : Instr} (hc : s.CapacityKept) (hr : s.port.rst = false)
    (hv : s.port.cmdValid = true) (hd : decode s.port.cmd = .ok i) : s.fetch = .next (some i, s.advance) := by
  rcases s.fetch_cases with ⟨hover, -⟩ | ⟨-, hr', -⟩ | ⟨-, -, hv', -⟩ | ⟨-, -, -, j, hd', hf⟩ | ⟨-, -, -, w, hd', -⟩
  · exact absurd hc (Nat.not_le.mpr hover)
  · simp [hr] at hr'
  · simp [hv] at hv'
  · cases hd.symm.trans hd'
    exact hf
  · cases hd.symm.trans hd'

/-- Settles O5: `fetch` takes the command, and `step` runs it on the state whose pins moved on. -/
theorem stepRunsTheDecodedCommand : Obligations.StepRunsTheDecodedCommand := by
  intro s i hc hr hv hd
  rw [step, State.fetch_of_command hc hr hv hd]
  rfl

/-! ### The byte packed from 8 bits (R12) -/

/-- R12: the weights of a byte add up to 255 at most, so the sum is taken whole and nothing is cut off. -/
theorem pack_toNat (B : List Bit) :
    (pack B).toNat = ((List.range 8).map fun i => (B.getD i false).toNat * 2 ^ (7 - i)).sum := by
  have bound : ((List.range 8).map fun i => (B.getD i false).toNat * 2 ^ (7 - i)).sum ≤
      ((List.range 8).map fun i => 1 * 2 ^ (7 - i)).sum :=
    List.sum_le_sum fun i _ => Nat.mul_le_mul_right _ (Bool.toNat_le _)
  have weights : ((List.range 8).map fun i => 1 * 2 ^ (7 - i)).sum = 255 := by decide
  exact Nat.mod_eq_of_lt (by omega)

/-- Settles O35: the sum of `pack_toNat`, written out for 8 bits. -/
theorem packIsTheWeightedSum : Obligations.PackIsTheWeightedSum := by
  intro b0 b1 b2 b3 b4 b5 b6 b7
  rw [pack_toNat]
  simp [List.range_succ, Nat.add_assoc]

end Sys2Proof.Machine
end

section
/-! SUPPORT. Proofs of the statements about 10_state.md: the invariant, what a command leaves alone, and the status word. -/

namespace Sys2Proof.Machine

/-! ### The invariant of quiescent states (R23, R108, R121) -/

theorem State.emptyWhileHalted_of_running {s : State} (h : s.halted = false) : s.EmptyWhileHalted := by
  simp [State.EmptyWhileHalted, h]

/-- R81: the check before the append keeps the bound. -/
theorem State.offer_capacityKept {s : State} (h : s.CapacityKept) (b : Bit) : (s.offer b).CapacityKept := by
  by_cases hroom : s.q.length < s.cfg.maxBits
  · simpa [State.offer_of_room hroom] using hroom
  · rwa [State.offer_of_full (Nat.not_lt.mp hroom)]

/-- R108: DRAIN goes on while it may, so whatever it starts from, fewer than 8 bits stay if it leaves `reading = 1`. -/
theorem State.drain_drainedWhileReading (s : State) : s.drain.DrainedWhileReading := by
  obtain ⟨k, r, he, -, hr⟩ := s.drain_afterBytes
  intro hreading
  have short := (hr (by simpa [he] using hreading)).2
  simp only [he, State.afterBytes_q, List.length_drop]
  omega

theorem State.drain_capacityKept {s : State} (h : s.CapacityKept) : s.drain.CapacityKept := by
  obtain ⟨k, r, he, -⟩ := s.drain_afterBytes
  simp only [State.CapacityKept, he, State.afterBytes_q, State.afterBytes_cfg, List.length_drop] at h ⊢
  omega

/-- DRAIN makes the invariant of any running state within its capacity, whatever `reading` and `|Q|` were. -/
theorem State.drain_inv {s : State} (hc : s.CapacityKept) (hh : s.halted = false) : s.drain.Inv :=
  ⟨State.drain_capacityKept hc, s.drain_drainedWhileReading, State.emptyWhileHalted_of_running (by simpa using hh)⟩

theorem State.advance_inv {s : State} (h : s.Inv) : s.advance.Inv := h

/-- R160: reset empties the queue and clears both flags, so it makes the invariant of any state. -/
theorem State.resetEvent_inv (s : State) : s.resetEvent.Inv := by
  simp [State.Inv, State.CapacityKept]

theorem State.terminate_inv (s : State) : s.terminate.Inv := by
  simp [State.Inv, State.CapacityKept]

/-- R23, R108, R121: every command keeps the invariant. -/
theorem exec_inv {i : Instr} {s t : State} (hi : s.Inv) (h : exec i s = .next t) : t.Inv := by
  have hc : s.CapacityKept := hi.1
  rcases exec_cases h with
    rfl | ⟨-, -, rfl⟩ | ⟨b, -, hh, hr, rfl⟩ | ⟨b, -, hh, -, rfl⟩ | ⟨-, hh, rfl⟩
  · exact hi
  · exact s.terminate_inv
  · exact ⟨State.offer_capacityKept hc b, by simp [State.DrainedWhileReading, hr],
      State.emptyWhileHalted_of_running (by simpa using hh)⟩
  · exact State.drain_inv (State.offer_capacityKept hc b) (by simpa using hh)
  · exact State.drain_inv (s := s.startReading) hc hh

/-- R29: no command changes what the block was built with. -/
theorem exec_cfg {i : Instr} {s t : State} (h : exec i s = .next t) : t.cfg = s.cfg := by
  rcases exec_cases h with
    rfl | ⟨-, -, rfl⟩ | ⟨b, -, -, -, rfl⟩ | ⟨b, -, -, -, rfl⟩ | ⟨-, -, rfl⟩ <;> simp

/-- Settles O23: reset, nothing taken, and each command (`exec_inv`) keep the invariant and the configuration. -/
theorem invariantKeptByEveryStep : Obligations.InvariantKeptByEveryStep := by
  intro s t hi h
  rcases step_cases h with ⟨-, rfl⟩ | ⟨-, -, rfl⟩ | ⟨-, -, i, -, he⟩
  · exact ⟨s.advance.resetEvent_inv, rfl⟩
  · exact ⟨State.advance_inv hi, rfl⟩
  · exact ⟨exec_inv (State.advance_inv hi) he, (exec_cfg he).trans s.advance_cfg⟩

/-- Settles O22: reset leaves the queue empty and both flags off. -/
theorem invariantHoldsAtReset : Obligations.InvariantHoldsAtReset :=
  fun c => (State.resetWith c).resetEvent_inv

/-- Settles O8: the reset values, as `State.resetWith` and `Cycle.reset` give them. -/
theorem resetStateIsEmptyAndIdle : Obligations.ResetStateIsEmptyAndIdle :=
  ⟨fun _ => ⟨rfl, rfl, rfl, rfl⟩, ⟨Config.reference, rfl⟩, rfl, rfl⟩

/-! ### A bit dropped under saturation (R31) -/

/-- R92, R108: in a quiescent state DRAIN has nothing to do, reading or not. -/
theorem State.drainIfReading_of_drained {s : State} (h : s.DrainedWhileReading) : s.drainIfReading = s := by
  cases hr : s.reading
  · simp [State.drainIfReading, hr]
  · simp [State.drainIfReading, hr, State.drain_of_short (h hr)]

/-- Settles O13: the full queue takes no bit, and the quiescent state has no byte to send. -/
theorem droppedBitLeavesNoTrace : Obligations.DroppedBitLeavesNoTrace := by
  intro b s hd hfull
  cases hh : s.halted
  · simp [exec_of_running hh, State.offer_of_full hfull, State.drainIfReading_of_drained hd]
  · exact exec_of_halted hh _

/-! ### What each command leaves alone (R33) -/

/-- R48, R81: no old bit is moved or evicted by a new one. -/
theorem State.q_prefix_offer_q (b : Bit) (s : State) : s.q <+: (s.offer b).q := by
  rw [State.offer_q]
  split
  · exact List.prefix_append ..
  · exact List.prefix_rfl

theorem State.emitted_prefix_drain_emitted (s : State) : s.emitted <+: s.drain.emitted := by
  obtain ⟨k, r, he, -⟩ := s.drain_afterBytes
  simp [he]

/-- Settles O28: by what each command can do; DRAIN puts new bytes behind the old ones and keeps the rest of the frame. -/
theorem frameOfEveryCommand : Obligations.FrameOfEveryCommand := by
  intro i s t h
  rcases exec_cases h with
    rfl | ⟨rfl, -, rfl⟩ | ⟨b, rfl, -, hr, rfl⟩ | ⟨b, rfl, -, hr, rfl⟩ | ⟨rfl, -, rfl⟩
  · simp
  · simp
  · simp [State.q_prefix_offer_q]
  · simpa [hr] using (s.offer b).emitted_prefix_drain_emitted
  · simpa using s.startReading.emitted_prefix_drain_emitted

/-! ### The block sees neither what it emitted nor what comes next (R20, R54) -/

/-- `s` with other inputs to come, and with the bytes `es` emitted before its own. -/
def State.inContext (ps : List PortIn) (es : List Byte) (s : State) : State :=
  { s with inputs := ps, emitted := es ++ s.emitted }

section
variable (ps : List PortIn) (es : List Byte) (s : State)

@[simp] theorem State.inContext_q : (s.inContext ps es).q = s.q := rfl
@[simp] theorem State.inContext_reading : (s.inContext ps es).reading = s.reading := rfl
@[simp] theorem State.inContext_halted : (s.inContext ps es).halted = s.halted := rfl
@[simp] theorem State.inContext_nextAnswer : (s.inContext ps es).nextAnswer = s.nextAnswer := rfl

theorem State.offer_inContext (b : Bit) : (s.inContext ps es).offer b = (s.offer b).inContext ps es := by
  by_cases h : s.q.length < s.cfg.maxBits
  · rw [State.offer_of_room h, State.offer_of_room (s := s.inContext ps es) h]
    simp [State.qPush, State.inContext]
  · rw [State.offer_of_full (Nat.not_lt.mp h), State.offer_of_full (s := s.inContext ps es) (Nat.not_lt.mp h)]

theorem State.drainPass_inContext : (s.inContext ps es).drainPass.2 = s.drainPass.2.inContext ps es := by
  simp [State.drainPass, State.qPopN, State.emit, State.inContext, State.nextAnswer]

end

theorem State.drainPasses_inContext (ps : List PortIn) (es : List Byte) (n : Nat) (s : State) :
    State.drainPasses n (s.inContext ps es) = (State.drainPasses n s).inContext ps es := by
  induction n generalizing s with
  | zero => rfl
  | succ n ih =>
    by_cases h8 : s.q.length < 8
    · simp [State.drainPasses, h8]
    · cases ha : s.nextAnswer
      · simp only [State.drainPasses, State.inContext_q, h8, State.drainPass_answer, State.inContext_nextAnswer, ha,
          State.drainPass_inContext, if_false, Bool.false_eq_true]
        rfl
      · simp [State.drainPasses, h8, ha, State.drainPass_inContext, ih]

theorem State.drain_inContext (ps : List PortIn) (es : List Byte) (s : State) :
    (s.inContext ps es).drain = s.drain.inContext ps es :=
  State.drainPasses_inContext ps es _ s

theorem State.drainIfReading_inContext (ps : List PortIn) (es : List Byte) (s : State) :
    (s.inContext ps es).drainIfReading = s.drainIfReading.inContext ps es := by
  cases hr : s.reading <;> simp [State.drainIfReading, hr, State.drain_inContext]

/-- R20, R54: a command does the same in every context. -/
theorem exec_inContext {i : Instr} {s t : State} (ps : List PortIn) (es : List Byte) (h : exec i s = .next t) :
    exec i (s.inContext ps es) = .next (t.inContext ps es) := by
  cases hh : s.halted
  · rw [exec_of_running hh] at h
    rw [exec_of_running (by simpa using hh)]
    injection h with h
    subst h
    cases i with
    | nop | term => rfl
    | ingest b => simp [State.offer_inContext, State.drainIfReading_inContext]
    | reqmore => exact congrArg _ (State.drain_inContext ps es s.startReading)
  · rw [exec_of_halted hh] at h
    injection h with h
    subst h
    exact exec_of_halted (by simpa using hh) i

/-- Settles O33: both runs are the run that has emitted nothing yet, each in a context of its own. -/
theorem outputsDoNotFeedBack : Obligations.OutputsDoNotFeedBack := by
  intro i s t ps es h
  obtain ⟨u, hu⟩ := exec_next i { s with emitted := [] }
  have here : exec i s = .next (u.inContext s.inputs s.emitted) := by
    simpa [State.inContext] using exec_inContext s.inputs s.emitted hu
  have there : exec i { s with inputs := ps, emitted := es } = .next (u.inContext ps es) := by
    simpa [State.inContext] using exec_inContext ps es hu
  have ht : t = u.inContext s.inputs s.emitted := by
    rw [h] at here
    injection here
  simp [there, ht, State.inContext]

/-! ### The status word (R28) -/

/-- The upper word of a concatenation counts `2 ^ w` each. -/
theorem toNat_append_eq_add {v w : Nat} (x : BitVec v) (y : BitVec w) :
    (x ++ y).toNat = 2 ^ w * x.toNat + y.toNat := by
  rw [BitVec.toNat_append, Nat.shiftLeft_eq, Nat.mul_comm, Nat.two_pow_add_eq_or_of_lt y.isLt]

/-- R7: a queue within the capacity has a length that `CW` bits can write. -/
theorem State.stCount_toNat {s : State} (h : s.CapacityKept) : s.stCount.toNat = s.q.length :=
  Nat.mod_eq_of_lt (h.trans_lt (lt_two_pow_countWidth _))

theorem State.status_toNat {s : State} (h : s.CapacityKept) :
    s.status.toNat = s.reading.toNat + 2 * s.saturated.toNat + 4 * s.halted.toNat + 8 * s.q.length := by
  simp only [State.status, toNat_append_eq_add, State.stCount_toNat h, BitVec.toNat_ofBool, State.stHalted,
    State.stSaturated, State.stReading]
  omega

/-- Settles O38: the four outputs are the state's own conditions, and STATUS is their weighted sum. -/
theorem statusWordShowsTheState : Obligations.StatusWordShowsTheState := by
  refine ⟨fun s hc => ⟨State.status_toNat hc, rfl, rfl, rfl, State.stCount_toNat hc⟩, fun c => ?_⟩
  have sum := State.status_toNat (invariantHoldsAtReset c).1
  by_cases h0 : c.maxBits = 0 <;> simpa [State.resetWith, State.saturated, h0] using sum

end Sys2Proof.Machine
end

section
/-! SUPPORT. Proofs of the statements about 20_memory.md: the account of accepted bits and sent bytes, and repeated commands. -/

namespace Sys2Proof.Machine

/-! ### Bits are conserved by each command (R44, R48, R49) -/

/-- R44, R93: the bits DRAIN sends are the ones it takes off the front of the queue. -/
theorem State.drain_conserves_bits (s : State) :
    ∃ E : List Byte, s.drain.emitted = s.emitted ++ E ∧ E.flatMap bits ++ s.drain.q = s.q := by
  obtain ⟨k, r, he, hk, -⟩ := s.drain_afterBytes
  exact ⟨packedPrefix s.q k, by simp [he], by simp [he, bits_packedPrefix k s.q hk]⟩

/-- R121: nothing is accepted while halted. -/
theorem State.accepts_of_halted {s : State} (h : s.halted = true) (i : Instr) : s.accepts i = [] := by
  cases i <;> simp [State.accepts, h]

/-- R81: the bit INGEST accepts is the one that `offer` appends. -/
theorem State.offer_q_eq_append_accepts {s : State} (h : s.halted = false) (b : Bit) :
    (s.offer b).q = s.q ++ s.accepts (.ingest b) := by
  by_cases hroom : s.q.length < s.cfg.maxBits
  · simp [State.offer_of_room hroom, State.accepts, h, State.saturated, Nat.not_le.mpr hroom]
  · simp [State.offer_of_full (Nat.not_lt.mp hroom), State.accepts, h, State.saturated, Nat.not_lt.mp hroom]

/-- Settles O30: INGEST appends what it accepts, and DRAIN moves bits from the queue to the bytes without loss. -/
theorem noBitSkippedOrDuplicated : Obligations.NoBitSkippedOrDuplicated := by
  intro i s t hterm h
  cases hh : s.halted
  · rw [exec_of_running hh] at h
    injection h with h
    subst h
    cases i with
    | nop => exact ⟨[], by simp [State.accepts]⟩
    | ingest b =>
      rw [← State.offer_q_eq_append_accepts hh]
      cases hr : s.reading
      · exact ⟨[], by simp [State.drainIfReading, hr]⟩
      · simpa [State.drainIfReading, hr] using (s.offer b).drain_conserves_bits
    | reqmore => simpa [State.accepts] using s.startReading.drain_conserves_bits
    | term => exact absurd rfl hterm
  · rw [exec_of_halted hh] at h
    injection h with h
    subst h
    exact ⟨[], by simp [State.accepts_of_halted hh]⟩

/-! ### The account balances (R46) -/

/-- R120, R121: a quiescent state's queue is empty after TERM, halted already or not. -/
theorem exec_term_q {s t : State} (hi : s.EmptyWhileHalted) (h : exec .term s = .next t) : t.q = [] := by
  cases hh : s.halted
  · rw [exec_of_running hh] at h
    injection h with h
    simp [← h]
  · rw [exec_of_halted hh] at h
    injection h with h
    exact h ▸ (hi hh).1

/-- R46: what one transaction does to the account: it starts anew over an empty queue, or the bits of its bytes and then the
new queue are the old queue and the accepted bits. -/
theorem step_account {s t : State} (hi : s.Inv) (h : step s = .next t) :
    (s.startsAnew = true ∧ t.q = []) ∨
    (s.startsAnew = false ∧ ∃ E : List Byte, t.emitted = s.emitted ++ E ∧
      E.flatMap bits ++ t.q = s.q ++ s.acceptedNext) := by
  obtain ⟨-, -, empty⟩ := hi
  rcases step_cases h with ⟨hr, rfl⟩ | ⟨hr, hv, rfl⟩ | ⟨hr, hv, i, hd, he⟩
  · exact .inl ⟨by simp [State.startsAnew, hr], rfl⟩
  · exact .inr ⟨by simp [State.startsAnew, PortIn.taken, hr, hv], [],
      by simp [State.acceptedNext, PortIn.taken, hv]⟩
  · have taken : s.port.taken = some i := by simp [PortIn.taken, hr, hv, hd]
    by_cases hterm : i = .term
    · subst hterm
      exact .inl ⟨by simp [State.startsAnew, taken], exec_term_q (s := s.advance) empty he⟩
    · refine .inr ⟨by simp [State.startsAnew, taken, hr, hterm], ?_⟩
      rw [State.acceptedNext, taken]
      exact noBitSkippedOrDuplicated i s.advance t hterm he

/-- An account's entry, by what the transaction answers. -/
theorem Ledger.step_next {l m : Ledger} (h : l.step = .next m) :
    ∃ t, Machine.step l.state = .next t ∧
      m = { state := t
            accepted := if l.state.startsAnew then [] else l.accepted ++ l.state.acceptedNext
            sent := if l.state.startsAnew then [] else l.sent ++ t.emitted.drop l.state.emitted.length } := by
  unfold Ledger.step at h
  cases hs : Machine.step l.state with
  | next t =>
    simp only [hs] at h
    injection h with h
    exact ⟨t, rfl, h.symm⟩
  | fault r => simp [hs] at h
  | refused r => simp [hs] at h

/-- Settles O31: a new account is empty over an empty queue; else both sides grow by what the transaction accepts. -/
theorem ledgerStaysBalanced : Obligations.LedgerStaysBalanced := by
  intro l m hi hb h
  obtain ⟨t, ht, rfl⟩ := Ledger.step_next h
  rcases step_account hi ht with ⟨hnew, hq⟩ | ⟨hold, E, hE, hbits⟩
  · simp [Ledger.Balanced, hnew, hq]
  · simp only [Ledger.Balanced, hold, hE, List.drop_left, Bool.false_eq_true, if_false]
    calc l.accepted ++ l.state.acceptedNext
        = l.sent.flatMap bits ++ (l.state.q ++ l.state.acceptedNext) := by rw [hb, List.append_assoc]
      _ = l.sent.flatMap bits ++ (E.flatMap bits ++ t.q) := by rw [hbits]
      _ = (l.sent ++ E).flatMap bits ++ t.q := by rw [List.flatMap_append, List.append_assoc]

/-! ### The bytes of a balanced account (R46, R47) -/

/-- A run of `k + 1` entries is one entry and then a run of `k`. -/
theorem Ledger.steps_succ_next {k : Nat} {l n : Ledger} (h : Ledger.steps (k + 1) l = .next n) :
    ∃ m, l.step = .next m ∧ Ledger.steps k m = .next n := by
  unfold Ledger.steps at h
  cases hs : l.step with
  | next m => exact ⟨m, rfl, by simpa [hs] using h⟩
  | fault r => simp [hs] at h
  | refused r => simp [hs] at h

/-- Over every run from a quiescent state, a balanced account stays balanced. -/
theorem Ledger.steps_balanced {k : Nat} {l n : Ledger} (hi : l.state.Inv) (hb : l.Balanced)
    (h : Ledger.steps k l = .next n) : n.Balanced := by
  induction k generalizing l with
  | zero =>
    injection h with h
    exact h ▸ hb
  | succ k ih =>
    obtain ⟨m, hm, hrest⟩ := Ledger.steps_succ_next h
    obtain ⟨t, ht, hstate⟩ := Ledger.step_next hm
    have inv : m.state.Inv := by
      rw [hstate]
      exact (invariantKeptByEveryStep l.state t hi ht).1
    exact ih inv (ledgerStaysBalanced l m hi hb hm) hrest

/-- The 8 bits of a byte tell it from every other. -/
theorem bits_injective : Function.Injective bits := by
  intro v w h
  refine BitVec.eq_of_getLsbD_eq fun i hi => ?_
  have hbit := List.map_inj_left.mp h (7 - i) (List.mem_range.mpr (by omega))
  rwa [show 7 - (7 - i) = i by omega] at hbit

@[simp] theorem pack_bits (v : Byte) : pack (bits v) = v :=
  bits_injective (bits_pack (bits_length v))

/-- R47: packing the bits of some bytes, whatever follows them, gives the bytes back. -/
theorem packedPrefix_flatMap_bits_append (bs : List Byte) (Q : List Bit) :
    packedPrefix (bs.flatMap bits ++ Q) bs.length = bs := by
  induction bs with
  | nil => rfl
  | cons v bs ih =>
    rw [List.length_cons, packedPrefix_succ, List.flatMap_cons, List.append_assoc,
      List.take_left' (bits_length v), List.drop_left' (bits_length v), pack_bits, ih]

/-- Settles O32: the account balances at the end of the run, and that says which bits are in which byte. -/
theorem kthByteIsPackedFromTheKthRunOfBits : Obligations.KthByteIsPackedFromTheKthRunOfBits := by
  intro k s l hi hq h
  have opened : (Ledger.open s).Balanced := by simp [Ledger.Balanced, Ledger.open, hq]
  have balanced : l.accepted = l.sent.flatMap bits ++ l.state.q := Ledger.steps_balanced hi opened h
  have sentLength := flatMap_bits_length l.sent
  rw [balanced]
  exact ⟨(packedPrefix_flatMap_bits_append ..).symm, (List.drop_left' sentLength).symm,
    by rw [List.length_append, sentLength]⟩

/-! ### A run of INGESTs with no drain (R48, R81) -/

/-- R63, R64: the word of a command decodes to it. -/
theorem decode_encode (i : Instr) : decode (encode i) = .ok i := by
  cases i with
  | nop | reqmore | term => rfl
  | ingest b => cases b <;> rfl

/-- R67: the command whose word is presented next is applied in the next transaction. -/
theorem step_of_presented {s : State} {i : Instr} {ps : List PortIn} (hc : s.CapacityKept)
    (hin : s.inputs = PortIn.word (encode i) :: ps) : step s = exec i { s with inputs := ps } := by
  have hp : s.port = PortIn.word (encode i) := by simp [State.port, hin]
  have runs := stepRunsTheDecodedCommand s i hc
  rw [hp, hin] at runs
  exact runs rfl rfl (decode_encode i)

/-- R80: with no drain to make, INGEST is the offer alone. -/
theorem exec_ingest_of_not_reading {s : State} (hh : s.halted = false) (hr : s.reading = false) (b : Bit) :
    exec (.ingest b) s = .next (s.offer b) := by
  simp [exec_of_running hh, State.drainIfReading, hr]

/-- R48, R81: within the capacity, an offer keeps the first `MAX_BITS` bits. -/
theorem State.offer_eq_take {s : State} (hc : s.CapacityKept) (b : Bit) :
    s.offer b = { s with q := (s.q ++ [b]).take s.cfg.maxBits } := by
  by_cases hroom : s.q.length < s.cfg.maxBits
  · rw [State.offer_of_room hroom, List.take_of_length_le (by simpa using hroom)]
    rfl
  · have hlen : s.q.length = s.cfg.maxBits := le_antisymm hc (Nat.not_lt.mp hroom)
    rw [State.offer_of_full hlen.ge, List.take_left' hlen]

/-- R48, R81: one INGEST with no drain, presented on the pins. -/
theorem step_of_ingest_presented {b : Bit} {s : State} {ps : List PortIn} (hc : s.CapacityKept)
    (hh : s.halted = false) (hr : s.reading = false) (hin : s.inputs = PortIn.word (encode (.ingest b)) :: ps) :
    step s = .next { s with q := (s.q ++ [b]).take s.cfg.maxBits, inputs := ps } := by
  rw [step_of_presented hc hin, exec_ingest_of_not_reading (s := { s with inputs := ps }) hh hr,
    State.offer_eq_take (s := { s with inputs := ps }) hc]

/-- A run of `k + 1` transactions, by what the first one answers. -/
theorem steps_succ_of_next {s t : State} (k : Nat) (h : step s = .next t) : steps (k + 1) s = steps k t := by
  simp [steps, h]

/-- Cutting early to the first `m` changes nothing. -/
theorem take_take_append (m : Nat) (l r : List Bit) : (l.take m ++ r).take m = (l ++ r).take m := by
  have h : m - min m l.length = m - l.length := by omega
  simp [List.take_append, List.take_take, h]

/-- Settles O14: each INGEST keeps the first `MAX_BITS` bits, so the whole run does. -/
theorem queueKeepsTheFirstBitsIngested : Obligations.QueueKeepsTheFirstBitsIngested := by
  intro bs
  induction bs with
  | nil =>
    intro s ps hc _ _ hin
    obtain rfl : s.inputs = ps := hin
    simp [steps, List.take_of_length_le hc]
  | cons b bs ih =>
    intro s ps hc hh hr hin
    rw [List.length_cons, steps_succ_of_next _ (step_of_ingest_presented hc hh hr hin)]
    refine Eq.trans (ih _ ps (List.length_take_le ..) hh hr rfl) ?_
    simp [take_take_append]

/-! ### Repeated commands (R51) -/

/-- R92: a pull on a short queue only sets the Reading flag. -/
theorem exec_reqmore_of_short {s : State} (hh : s.halted = false) (hq : s.q.length < 8) :
    exec .reqmore s = .next s.startReading := by
  rw [exec_of_running hh, State.drain_of_short (s := s.startReading) hq]

/-- R120, R121: TERM leaves the block halted. -/
theorem exec_term_halted {s t : State} (h : exec .term s = .next t) : t.halted = true := by
  cases hh : s.halted
  · rw [exec_of_running hh] at h
    injection h with h
    simp [← h]
  · rw [exec_of_halted hh] at h
    injection h with h
    exact h ▸ hh

/-- R80, R81: with room in the queue and no drain to make, INGEST appends its bit. -/
theorem exec_ingest_of_room {s : State} (hh : s.halted = false) (hr : s.reading = false)
    (hroom : s.q.length < s.cfg.maxBits) (b : Bit) : exec (.ingest b) s = .next (s.qPush b) := by
  rw [exec_ingest_of_not_reading hh hr, State.offer_of_room hroom]

/-- Settles O34: NOP answers its own state, TERM a halted one, and the flag set by REQMORE is set again; INGEST appends
at each call. -/
theorem repeatingACommand : Obligations.RepeatingACommand := by
  constructor
  · rintro i s t (rfl | rfl | ⟨rfl, hq⟩) h
    · rfl
    · exact exec_of_halted (exec_term_halted h) .term
    · cases hh : s.halted
      · rw [exec_reqmore_of_short hh hq] at h
        injection h with h
        subst h
        exact exec_reqmore_of_short hh hq
      · rw [exec_of_halted hh] at h
        injection h with h
        subst h
        exact exec_of_halted hh .reqmore
  · intro b s t hh hr hroom h
    rw [exec_ingest_of_room hh hr (by omega)] at h
    injection h with h
    subst h
    rw [exec_ingest_of_room (s := s.qPush b) hh hr (by simp; omega)]
    simp [State.qPush]

end Sys2Proof.Machine
end

section
/-! SUPPORT. Proofs of the statements about 30_encoding.md: the ports during a drain, the opcode map, the idle port, FEED8. -/

namespace Sys2Proof.Machine

/-! ### The clocks of a drain (R68, R171) -/

/-- R93: byte number `j` of those packed from a queue. -/
theorem packedPrefix_getElem? {j k : Nat} (h : j < k) (Q : List Bit) :
    (packedPrefix Q k)[j]? = some (pack ((Q.drop (8 * j)).take 8)) := by
  simp [packedPrefix, h]

/-- R93: DRAIN sends `k` whole bytes of the queue, and the consumer accepted all of them but perhaps the last. -/
theorem State.drain_emitted_accepted (s : State) :
    ∃ k, s.drain.emitted = s.emitted ++ packedPrefix s.q k ∧ 8 * k ≤ s.q.length ∧
      ∀ i, i + 1 < k → s.answerAt i = true := by
  rcases s.drain_cases with ⟨hall, he⟩ | ⟨k, hk, hall, -, he⟩
  · exact ⟨_, by rw [he, State.afterBytes_emitted], by omega, fun i hi => hall i (by omega)⟩
  · exact ⟨k + 1, by rw [he, State.afterBytes_emitted], by omega, fun i hi => hall i (by omega)⟩

/-- R81: the clock that takes a command keeps the queue within the capacity. -/
theorem State.commandEdge_capacityKept {s : State} (h : s.CapacityKept) (i : Instr) :
    (s.commandEdge i).CapacityKept := by
  unfold State.commandEdge
  split
  · exact h
  · cases i with
    | nop | reqmore => exact h
    | ingest b => exact State.offer_capacityKept h b
    | term => exact Nat.zero_le _

/-- A run of clocks, by what the first one answers. -/
theorem Cycle.clocks_cons_of_next {p : PortIn} {c d : Cycle} (ps : List PortIn) (h : c.clock p = .next d) :
    Cycle.clocks (p :: ps) c = Cycle.clocks ps d := by
  simp [Cycle.clocks, h]

/-- R67, R171: in Idle, the command whose word is presented is taken. -/
theorem Cycle.clock_of_presented {s : State} (hc : s.CapacityKept) (i : Instr) :
    Cycle.clock (PortIn.word (encode i)) { block := s, phase := .idle } =
      .next { block := s.commandEdge i, phase := s.phaseAfter i } := by
  have hc' : s.withinCapacity = true := decide_eq_true hc
  simp [Cycle.clock, Cycle.takeCommand, PortIn.word, hc', decode_encode]

/-- R171: a drain goes on whatever the pins show but reset. -/
theorem Cycle.clock_of_draining {p : PortIn} {s : State} (hc : s.CapacityKept) (hp : p.rst = false) :
    Cycle.clock p { block := s, phase := .draining } = .next s.drainClock := by
  have hc' : s.withinCapacity = true := decide_eq_true hc
  simp [Cycle.clock, hc', hp]

/-- R101: after an accepted byte with 8 bits or more left, the block stays in the drain. -/
theorem State.drainClock_of_accepted {s : State} (ha : s.nextAnswer = true) (hq : 16 ≤ s.q.length) :
    s.drainClock = { block := s.drainPass.2, phase := .draining } := by
  have h : 8 ≤ s.q.length - 8 := by omega
  simp [State.drainClock, ha, h]

/-- R94: a pass only removes bits. -/
theorem State.drainPass_capacityKept {s : State} (h : s.CapacityKept) : s.drainPass.2.CapacityKept :=
  (List.drop_sublist 8 s.q).length_le.trans h

/-- R93, R171: after as many clocks of a drain as there are pins, each byte accepted and 8 bits or more left, that many
bytes are out and the drain goes on. -/
theorem Cycle.clocks_of_accepted {pins : List PortIn} {s : State} (hc : s.CapacityKept)
    (hp : ∀ p ∈ pins, p.rst = false) (ha : ∀ i < pins.length, s.answerAt i = true)
    (hq : 8 * (pins.length + 1) ≤ s.q.length) :
    Cycle.clocks pins { block := s, phase := .draining } =
      .next { block := s.afterBytes pins.length s.reading, phase := .draining } := by
  induction pins generalizing s with
  | nil => simp [Cycle.clocks, State.afterBytes_zero]
  | cons p ps ih =>
    rw [List.length_cons] at ha hq
    have answered : s.nextAnswer = true := s.nextAnswer_eq.trans (ha 0 (by omega))
    have later : ∀ i < ps.length, s.drainPass.2.answerAt i = true := fun i hi => by
      rw [State.drainPass_answerAt]
      exact ha (i + 1) (by omega)
    rw [Cycle.clocks_cons_of_next _ (Cycle.clock_of_draining hc (hp p (by simp))),
      State.drainClock_of_accepted answered (by omega),
      ih (State.drainPass_capacityKept hc) (fun r hr => hp r (by simp [hr])) later (by simp; omega),
      List.length_cons, State.afterBytes_succ, State.drainPass_reading]

/-- Settles O42: only a command that drains sends a byte; with `n` of its bytes out and accepted, the drain shows byte
number `n` of the queue. -/
theorem cycleLevelIsBusyUntilTheLastByte : Obligations.CycleLevelIsBusyUntilTheLastByte := by
  intro i s t pins hc h hp hlen
  rw [Cycle.clocks_cons_of_next _ (Cycle.clock_of_presented hc i)]
  cases hph : s.phaseAfter i with
  | idle =>
    cases h.symm.trans (exec_of_phaseAfter_idle hph)
    simp at hlen
  | draining =>
    cases h.symm.trans (exec_of_phaseAfter_draining hph).1
    obtain ⟨k, sent, bound, accepted⟩ := (s.commandEdge i).drain_emitted_accepted
    rw [State.commandEdge_emitted] at sent
    have more : pins.length < k := by
      rw [sent, List.length_append, packedPrefix_length] at hlen
      omega
    refine ⟨_, Cycle.clocks_of_accepted (State.commandEdge_capacityKept hc i) hp
      (fun j hj => accepted j (by omega)) (by omega), rfl, rfl, ?_⟩
    rw [sent, List.getElem?_append_right (by omega), Nat.add_sub_cancel_left, packedPrefix_getElem? more]
    rfl

/-! ### The opcode map (R63 to R66) -/

/-- Settles O1: five words are the words of commands; the map has no row for the other three. -/
theorem opcodeMapOfAllEightWords : Obligations.OpcodeMapOfAllEightWords :=
  ⟨decode_encode .nop, rfl, decode_encode (.ingest false), decode_encode (.ingest true), decode_encode .reqmore, rfl,
    decode_encode .term, rfl⟩

/-- Settles O2: this is `decode_encode`. -/
theorem decodeOfEncodeIsTheCommand : Obligations.DecodeOfEncodeIsTheCommand :=
  decode_encode

/-- R64: under the full mask a word matches only itself. -/
theorem eq_of_matches_full_mask : ∀ {w p : Cmd}, Cmd.matches w 0b111#3 p = true → w = p := by
  decide

/-- R64, R65: a word that matches INGEST's row is INGEST's word with `cmd[0]` as the operand. -/
theorem encode_ingest_dataBit :
    ∀ {w : Cmd}, Cmd.matches w 0b110#3 0b010#3 = true → encode (.ingest (Cmd.dataBit w)) = w := by
  decide

/-- Settles O3: row by row of the map, the mask leaves no bit of the word open but INGEST's operand. -/
theorem encodeOfDecodeIsTheWord : Obligations.EncodeOfDecodeIsTheWord := by
  intro w i h
  unfold decode at h
  split at h
  case isTrue hnop =>
    cases h
    exact (eq_of_matches_full_mask hnop).symm
  split at h
  case isTrue hingest =>
    cases h
    exact encode_ingest_dataBit hingest
  split at h
  case isTrue hreqmore =>
    cases h
    exact (eq_of_matches_full_mask hreqmore).symm
  split at h
  case isTrue hterm =>
    cases h
    exact (eq_of_matches_full_mask hterm).symm
  case isFalse => cases h

/-! ### The idle port (R67) -/

/-- R67: with no reset and `cmd_valid = 0`, the pins move on and nothing is taken. -/
theorem step_of_nothing_presented {s : State} (hc : s.CapacityKept) (hr : s.port.rst = false)
    (hv : s.port.cmdValid = false) : step s = .next s.advance := by
  rcases s.fetch_cases with ⟨hover, -⟩ | ⟨-, hr', -⟩ | ⟨-, -, -, hf⟩ | ⟨-, -, hv', -⟩ | ⟨-, -, hv', -⟩
  · exact absurd hc (Nat.not_le.mpr hover)
  · simp [hr] at hr'
  · rw [step, hf]
  · simp [hv] at hv'
  · simp [hv] at hv'

/-- With no input left there is none to move past. -/
theorem State.advance_of_no_inputs {s : State} (h : s.inputs = []) : s.advance = s := by
  cases s
  cases h
  rfl

/-- Settles O6: an exhausted list shows an idle port, and moving past it changes nothing. -/
theorem nothingPresentedTakesNoCommand : Obligations.NothingPresentedTakesNoCommand := by
  intro s hc
  refine ⟨fun hin => ?_, step_of_nothing_presented hc⟩
  have hp : s.port = PortIn.nothing := by simp [State.port, hin]
  rw [step_of_nothing_presented hc (by rw [hp]; rfl) (by rw [hp]; rfl), State.advance_of_no_inputs hin]

/-! ### FEED8 (R70) -/

/-- Settles O37: FEED8 presents `bits v`, and packing these gives `v` back. -/
theorem feedEightPresentsTheByteMsbFirst : Obligations.FeedEightPresentsTheByteMsbFirst :=
  fun v => ⟨rfl, rfl, pack_bits v⟩

end Sys2Proof.Machine
end

section
/-! SUPPORT. Proofs of the statements about 40_ingest.md: INGEST from any state and from a quiescent one, and NOP. -/

namespace Sys2Proof.Machine

/-! ### DRAIN by the answers it is given (R93, R94) -/

/-- R93: if no answer is a pause, DRAIN sends every whole byte. -/
theorem State.drain_of_all_accepted {s : State} (h : ∀ i < s.q.length / 8, s.answerAt i = true) :
    s.drain = s.afterBytes (s.q.length / 8) s.reading := by
  rcases s.drain_cases with ⟨-, he⟩ | ⟨k, hk, -, hstop, -⟩
  · exact he
  · simp [h k hk] at hstop

/-- R93: DRAIN stops after the first byte answered with a pause. -/
theorem State.drain_of_first_pause {s : State} {j : Nat} (hj : j < s.q.length / 8)
    (hall : ∀ i < j, s.answerAt i = true) (hstop : s.answerAt j = false) : s.drain = s.afterBytes (j + 1) false := by
  rcases s.drain_cases with ⟨haccepted, -⟩ | ⟨k, -, haccepted, hpause, he⟩
  · simp [haccepted j hj] at hstop
  · have notBefore : ¬ j < k := fun hjk => by simp [haccepted j hjk] at hstop
    have notAfter : ¬ k < j := fun hkj => by simp [hall k hkj] at hpause
    obtain rfl : k = j := by omega
    exact he

/-- R94: with one whole byte queued, DRAIN sends it and the answer is the new Reading flag. -/
theorem State.drain_of_one_byte {s : State} (hr : s.reading = true) (hq : s.q.length / 8 = 1) :
    s.drain = s.afterBytes 1 s.nextAnswer := by
  cases ha : s.nextAnswer <;> rw [State.nextAnswer_eq] at ha
  case false => exact State.drain_of_first_pause (by omega) (by simp) ha
  case true =>
    have accepted : ∀ i < s.q.length / 8, s.answerAt i = true := fun i hi => by
      obtain rfl : i = 0 := by omega
      exact ha
    rw [State.drain_of_all_accepted accepted, hq, hr]

/-! ### INGEST in every state (R80) -/

/-- R80, R81: the offer writes the queue alone. -/
theorem State.offer_eq (b : Bit) (s : State) :
    s.offer b = { s with q := if s.q.length < s.cfg.maxBits then s.q ++ [b] else s.q } := by
  by_cases hroom : s.q.length < s.cfg.maxBits
  · rw [State.offer_of_room hroom, if_pos hroom]
    rfl
  · rw [State.offer_of_full (Nat.not_lt.mp hroom), if_neg hroom]

/-- R80: with the Reading flag set, INGEST drains after the offer. -/
theorem exec_ingest_of_reading {s : State} (hh : s.halted = false) (hr : s.reading = true) (b : Bit) :
    exec (.ingest b) s = .next (s.offer b).drain := by
  simp [exec_of_running hh, State.drainIfReading, hr]

/-- R96: the answers to come do not depend on the bits offered. -/
@[simp] theorem State.offer_answerAt (b : Bit) (s : State) (k : Nat) : (s.offer b).answerAt k = s.answerAt k := by
  simp [State.answerAt]

/-- Settles O11: the offer, then nothing or DRAIN, which the answers cut off after the first pause. -/
theorem ingestExactResult : Obligations.IngestExactResult := by
  intro b s
  refine ⟨fun hh => exec_of_halted hh _, fun hh t ht => ?_⟩
  obtain rfl : t = s.offer b := ht.trans (s.offer_eq b).symm
  refine ⟨fun hr => exec_ingest_of_not_reading hh hr b, fun hr => ?_⟩
  rw [exec_ingest_of_reading hh hr]
  constructor
  · intro hall
    rw [State.drain_of_all_accepted (by simpa using hall), State.offer_reading, hr]
  · intro j hj hall hstop
    rw [State.drain_of_first_pause hj (by simpa using hall) (by simpa using hstop)]

/-! ### INGEST from a quiescent state (R83) -/

/-- R83: unless the bit is the eighth of a byte while reading, the offer leaves DRAIN nothing to do. -/
theorem State.offer_drainedWhileReading {b : Bit} {s : State} (hd : s.DrainedWhileReading)
    (h : ¬ (s.reading = true ∧ s.q.length = 7 ∧ 8 ≤ s.cfg.maxBits)) : (s.offer b).DrainedWhileReading := by
  intro hr
  rw [State.offer_reading] at hr
  have short := hd hr
  rw [State.offer_q]
  split
  case isTrue hroom =>
    have notSeven : s.q.length ≠ 7 := fun h7 => h ⟨hr, h7, by omega⟩
    simp only [List.length_append, List.length_singleton]
    omega
  case isFalse => exact short

/-- Settles O12: the eighth bit makes one byte for DRAIN; in every other case there is none. -/
theorem ingestEmitsAtMostOneByte : Obligations.IngestEmitsAtMostOneByte := by
  intro b s hd
  constructor
  · rintro ⟨hh, hr, h7, hcap⟩
    have whole : (s.q ++ [b]).take 8 = s.q ++ [b] := List.take_of_length_le (by simp [h7])
    have oneByte : (s.qPush b).q.length / 8 = 1 := by simp [h7]
    rw [exec_ingest_of_reading hh hr, State.offer_of_room (by omega), State.drain_of_one_byte (s := s.qPush b) hr oneByte]
    simp [State.afterBytes, packedPrefix, State.qPush, State.nextAnswer, h7, whole]
  · intro h
    cases hh : s.halted
    case true => exact ⟨s, exec_of_halted hh _, rfl, rfl, rfl⟩
    case false =>
      have drained : (s.offer b).DrainedWhileReading := State.offer_drainedWhileReading hd fun h' => h ⟨hh, h'⟩
      exact ⟨s.offer b, by simp [exec_of_running hh, State.drainIfReading_of_drained drained], by simp⟩

/-! ### NOP (R84) -/

/-- R143: past the capacity, a transaction faults, whatever the pins show. -/
theorem step_of_over_capacity {s : State} (h : ¬ s.CapacityKept) : step s = .fault .capacityInvariant := by
  rcases s.fetch_cases with ⟨-, hf⟩ | ⟨hc, -⟩ | ⟨hc, -⟩ | ⟨hc, -⟩ | ⟨hc, -⟩
  · rw [step, hf]
  all_goals exact absurd hc h

/-- R84: NOP answers the state it was given, halted or not. -/
theorem exec_nop (s : State) : exec .nop s = .next s := rfl

/-- Settles O10: within the capacity both transactions only move the pins on, and past it both fault. -/
theorem nopChangesNothing : Obligations.NopChangesNothing := by
  refine ⟨exec_nop, fun s w ps => ?_⟩
  by_cases hc : s.CapacityKept
  · calc step { s with inputs := { rst := false, cmdValid := false, cmd := w } :: ps }
      _ = .next { s with inputs := ps } := step_of_nothing_presented hc rfl rfl
      _ = exec .nop { s with inputs := ps } := (exec_nop _).symm
      _ = step { s with inputs := PortIn.word 0b000#3 :: ps } :=
        (step_of_presented (s := { s with inputs := PortIn.word 0b000#3 :: ps }) (i := .nop) hc rfl).symm
  · have faults (qs : List PortIn) : step { s with inputs := qs } = .fault .capacityInvariant :=
      step_of_over_capacity hc
    exact (faults _).trans (faults _).symm

end Sys2Proof.Machine
end

section
/-! SUPPORT. Proofs of the statements about 41_drain_control.md: the loop of DRAIN, REQMORE, runs with no byte, the eight
INGESTs of a byte, and the control states. -/

namespace Sys2Proof.Machine

/-! ### Runs with no pull (R99) -/

/-- R67, R161: the command of a valid word is taken when `rst` is low. -/
theorem PortIn.taken_of_decode {p : PortIn} {i : Instr} (hr : p.rst = false) (hv : p.cmdValid = true)
    (hd : decode p.cmd = .ok i) : p.taken = some i := by
  simp [PortIn.taken, hr, hv, hd]

/-- The pins of a transaction are the first of the inputs, or show nothing. -/
theorem State.port_taken_ne_of_forall_take {s : State} {k : Nat} {i : Instr}
    (h : ∀ p ∈ s.inputs.take (k + 1), p.taken ≠ some i) : s.port.taken ≠ some i := by
  cases hin : s.inputs with
  | nil => simp [State.port, hin, PortIn.taken, PortIn.nothing]
  | cons p ps => simpa [State.port, hin] using h p (by simp [hin])

/-- R21: each transaction takes one sample off the list. -/
theorem step_inputs {s t : State} (h : step s = .next t) : t.inputs = s.inputs.tail := by
  rcases step_cases h with ⟨-, rfl⟩ | ⟨-, -, rfl⟩ | ⟨-, -, i, -, he⟩
  · rfl
  · rfl
  · obtain ⟨-, inputs, -⟩ := frameOfEveryCommand i s.advance t he
    exact inputs

/-- R99: with `reading = 0`, a transaction that takes no REQMORE sends nothing, reads no answer and starts no reading. -/
theorem step_of_no_pull {s t : State} (hr : s.reading = false) (hp : s.port.taken ≠ some .reqmore)
    (h : step s = .next t) :
    t.reading = false ∧ t.emitted = s.emitted ∧ t.answers = s.answers ∧ t.answersRead = s.answersRead := by
  rcases step_cases h with ⟨-, rfl⟩ | ⟨-, -, rfl⟩ | ⟨hrst, hv, i, hd, he⟩
  · exact ⟨rfl, rfl, rfl, rfl⟩
  · exact ⟨hr, rfl, rfl, rfl⟩
  · have noPull : i ≠ .reqmore := fun hi => hp (hi ▸ PortIn.taken_of_decode hrst hv hd)
    obtain ⟨-, -, -, onlyPullSets, -, -, -, silent⟩ := frameOfEveryCommand i s.advance t he
    have stays : t.reading = false := Bool.eq_false_iff.mpr fun ht => by
      simpa [hr] using onlyPullSets noPull ht
    exact ⟨stays, silent (.inr (.inr ⟨hr, noPull⟩))⟩

/-- Settles O25: no transaction of the run sends a byte or sets the flag (`step_of_no_pull`). -/
theorem noByteUntilThePull : Obligations.NoByteUntilThePull := by
  intro k
  induction k with
  | zero =>
    intro s t hr _ h
    cases h
    exact ⟨hr, rfl, rfl, rfl⟩
  | succ k ih =>
    intro s t hr hp h
    obtain ⟨u, hstep, hrest⟩ := steps_succ_next h
    obtain ⟨hru, emitted, answers, read⟩ := step_of_no_pull hr (State.port_taken_ne_of_forall_take hp) hstep
    have later : ∀ p ∈ u.inputs.take k, p.taken ≠ some .reqmore := fun p hmem => by
      rw [step_inputs hstep, ← List.drop_one, List.take_drop, Nat.add_comm] at hmem
      exact hp p (List.mem_of_mem_drop hmem)
    obtain ⟨hrt, emitted', answers', read'⟩ := ih u t hru later hrest
    exact ⟨hrt, emitted'.trans emitted, answers'.trans answers, read'.trans read⟩

/-! ### The loop of DRAIN (R94, R97) -/

/-- R94: with 8 bits or more, DRAIN is one pass, and then DRAIN again unless the answer was a pause. -/
theorem State.drain_of_whole_byte {s : State} (h : 8 ≤ s.q.length) :
    s.drain = if s.nextAnswer then s.drainPass.2.drain else { s.drainPass.2 with reading := false } := by
  have passes : s.q.length / 8 = s.drainPass.2.q.length / 8 + 1 := by
    rw [State.drainPass_q, List.length_drop]
    omega
  rw [State.drain, passes, State.drainPasses, if_neg (Nat.not_lt.mpr h), State.drainPass_answer, State.drain]

/-- Settles O15: the state `t` of the statement is the one after a pass. -/
theorem drainIsTheLoopOfTheRule : Obligations.DrainIsTheLoopOfTheRule := by
  intro s _
  refine ⟨State.drain_of_short, fun h t ht => ?_⟩
  obtain rfl : t = s.drainPass.2 := ht
  rw [State.drain_of_whole_byte h]
  exact ⟨fun ha => by rw [ha]; rfl, fun ha => by rw [ha]; rfl⟩

/-- Settles O18: DRAIN sends some `k` bytes, and the queue held `8 * k` bits for them. -/
theorem drainPassesAreBounded : Obligations.DrainPassesAreBounded := by
  intro s
  obtain ⟨k, r, he, hk, -⟩ := s.drain_afterBytes
  have sent : s.drain.emitted.length = s.emitted.length + k := by simp [he]
  exact ⟨by omega, fun hc => by have bound : s.q.length ≤ s.cfg.maxBits := hc; omega⟩

/-! ### REQMORE (R90 to R93) -/

/-- R90: REQMORE sets the flag and drains. -/
theorem exec_reqmore_of_running {s : State} (h : s.halted = false) : exec .reqmore s = .next s.startReading.drain :=
  exec_of_running h .reqmore

/-- Settles O16: DRAIN after the flag write, cut off by the first pause or not at all. -/
theorem reqmoreExactResult : Obligations.ReqmoreExactResult := by
  intro s hh
  rw [exec_reqmore_of_running hh]
  constructor
  · intro hall
    refine ⟨congrArg _ (State.drain_of_all_accepted (s := s.startReading) hall), ?_⟩
    rw [State.afterBytes_q, List.length_drop]
    omega
  · intro j hj hall hstop
    exact congrArg _ (State.drain_of_first_pause (s := s.startReading) hj hall hstop)

/-- Settles O17: the flag write, with no pass after it. -/
theorem pullOnAShortQueueOnlySetsReading : Obligations.PullOnAShortQueueOnlySetsReading :=
  fun _ hq hh => exec_reqmore_of_short hh hq

/-! ### Quiescent states are Idle (R108) -/

/-- R100: Idle, as a property of the flag and the queue. -/
theorem State.idle_iff {s : State} : s.idle = true ↔ s.DrainedWhileReading := by
  simp [State.idle, State.DrainedWhileReading, imp_iff_not_or]

/-- R108: a command that leaves `reading = 1` leaves fewer than 8 bits. -/
theorem exec_drainedWhileReading {i : Instr} {s t : State} (hd : s.DrainedWhileReading) (h : exec i s = .next t) :
    t.DrainedWhileReading := by
  rcases exec_cases h with
    rfl | ⟨-, -, rfl⟩ | ⟨b, -, -, hr, rfl⟩ | ⟨b, -, -, -, rfl⟩ | ⟨-, -, rfl⟩
  · exact hd
  · simp [State.DrainedWhileReading]
  · simp [State.DrainedWhileReading, hr]
  · exact State.drain_drainedWhileReading _
  · exact State.drain_drainedWhileReading _

/-- Settles O24: reset clears the flag, an idle port changes nothing, and every command leaves an Idle state. -/
theorem quiescentStatesAreIdle : Obligations.QuiescentStatesAreIdle := by
  refine ⟨fun c => rfl, fun s t hi h => ?_⟩
  have hd : s.DrainedWhileReading := State.idle_iff.mp hi
  have kept : t.DrainedWhileReading := by
    rcases step_cases h with ⟨-, rfl⟩ | ⟨-, -, rfl⟩ | ⟨-, -, i, -, he⟩
    · simp [State.DrainedWhileReading]
    · exact hd
    · exact exec_drainedWhileReading (s := s.advance) hd he
  exact ⟨State.idle_iff.mpr kept, kept⟩

/-! ### Capacities below a byte (R107) -/

/-- R81: every command keeps the queue within the capacity. -/
theorem exec_capacityKept {i : Instr} {s t : State} (hc : s.CapacityKept) (h : exec i s = .next t) :
    t.CapacityKept := by
  rcases exec_cases h with
    rfl | ⟨-, -, rfl⟩ | ⟨b, -, -, -, rfl⟩ | ⟨b, -, -, -, rfl⟩ | ⟨-, -, rfl⟩
  · exact hc
  · exact Nat.zero_le _
  · exact State.offer_capacityKept hc b
  · exact State.drain_capacityKept (State.offer_capacityKept hc b)
  · exact State.drain_capacityKept (s := s.startReading) hc

/-- R107: a queue within a capacity below 8 holds no whole byte, so DRAIN has nothing to send. -/
theorem State.drain_of_small_capacity {s : State} (hsmall : s.cfg.maxBits < 8) (hc : s.CapacityKept) : s.drain = s :=
  State.drain_of_short (lt_of_le_of_lt hc hsmall)

/-- R107: no command sends a byte under a capacity below 8. -/
theorem exec_emitted_of_small_capacity {i : Instr} {s t : State} (hsmall : s.cfg.maxBits < 8) (hc : s.CapacityKept)
    (h : exec i s = .next t) : t.emitted = s.emitted := by
  rcases exec_cases h with
    rfl | ⟨-, -, rfl⟩ | ⟨b, -, -, -, rfl⟩ | ⟨b, -, -, -, rfl⟩ | ⟨-, -, rfl⟩
  · rfl
  · rfl
  · exact s.offer_emitted b
  · rw [State.drain_of_small_capacity (by simpa using hsmall) (State.offer_capacityKept hc b), State.offer_emitted]
  · rw [State.drain_of_small_capacity (s := s.startReading) hsmall hc, State.startReading_emitted]

/-- R107: no transaction sends a byte under a capacity below 8, and the next one starts within the same capacity. -/
theorem step_of_small_capacity {s t : State} (hsmall : s.cfg.maxBits < 8) (hc : s.CapacityKept)
    (h : step s = .next t) : t.cfg = s.cfg ∧ t.CapacityKept ∧ t.emitted = s.emitted := by
  rcases step_cases h with ⟨-, rfl⟩ | ⟨-, -, rfl⟩ | ⟨-, -, i, -, he⟩
  · exact ⟨rfl, Nat.zero_le _, rfl⟩
  · exact ⟨rfl, hc, rfl⟩
  · exact ⟨exec_cfg (s := s.advance) he, exec_capacityKept (s := s.advance) hc he,
      exec_emitted_of_small_capacity (s := s.advance) hsmall hc he⟩

/-- Settles O27: no transaction of the run sends a byte (`step_of_small_capacity`). -/
theorem smallCapacityNeverEmits : Obligations.SmallCapacityNeverEmits := by
  intro k
  induction k with
  | zero =>
    intro s t _ _ h
    cases h
    rfl
  | succ k ih =>
    intro s t hsmall hc h
    obtain ⟨u, hstep, hrest⟩ := steps_succ_next h
    obtain ⟨cfg, hcu, emitted⟩ := step_of_small_capacity hsmall hc hstep
    exact (ih u t (cfg ▸ hsmall) hcu hrest).trans emitted

/-! ### The eight INGESTs of a byte (R106) -/

/-- R80, R83: an INGEST that does not complete a byte appends its bit, whatever the Reading flag is. -/
theorem exec_ingest_of_no_whole_byte {s : State} (hh : s.halted = false) (hroom : s.q.length < s.cfg.maxBits)
    (hq : s.q.length < 7) (b : Bit) : exec (.ingest b) s = .next (s.qPush b) := by
  have drained : (s.qPush b).DrainedWhileReading := fun _ => by
    rw [State.qPush_q, List.length_append, List.length_singleton]
    omega
  rw [exec_of_running hh]
  simp only [State.offer_of_room hroom, State.drainIfReading_of_drained drained]

/-- R80, R83: an INGEST that does not complete a byte, presented on the pins. -/
theorem step_of_ingest_of_no_whole_byte {b : Bit} {s : State} {ps : List PortIn} (hcap : 8 ≤ s.cfg.maxBits)
    (hh : s.halted = false) (hq : s.q.length < 7) (hin : s.inputs = PortIn.word (encode (.ingest b)) :: ps) :
    step s = .next { s with q := s.q ++ [b], inputs := ps } := by
  have hc : s.q.length ≤ s.cfg.maxBits := by omega
  have hroom : s.q.length < s.cfg.maxBits := by omega
  exact (step_of_presented hc hin).trans (exec_ingest_of_no_whole_byte (s := { s with inputs := ps }) hh hroom hq b)

/-- R83, R106: while reading, a run of INGESTs that brings the queue to 8 bits sends them as one byte. -/
theorem steps_of_ingests_completing_byte {bs : List Bit} {b : Bit} {s : State} {ps : List PortIn}
    (hcap : 8 ≤ s.cfg.maxBits) (hh : s.halted = false) (hr : s.reading = true) (hlen : s.q.length + bs.length = 7)
    (hin : s.inputs = ((bs ++ [b]).map fun b => PortIn.word (encode (.ingest b))) ++ ps) :
    steps (bs.length + 1) s = .next
      { s with
        q := []
        reading := s.nextAnswer
        inputs := ps
        answers := s.answers.tail
        answersRead := s.answersRead + 1
        emitted := s.emitted ++ [pack (s.q ++ bs ++ [b])] } := by
  induction bs generalizing s with
  | nil =>
    have h7 : s.q.length = 7 := hlen
    have hc : s.q.length ≤ s.cfg.maxBits := by omega
    have short : s.q.length < 8 := by omega
    obtain ⟨oneByte, -⟩ := ingestEmitsAtMostOneByte b { s with inputs := ps } fun _ => short
    rw [List.length_nil, steps_succ_of_next 0 ((step_of_presented hc hin).trans (oneByte ⟨hh, hr, h7, hcap⟩)),
      List.append_nil]
    rfl
  | cons a bs ih =>
    rw [List.length_cons] at hlen ⊢
    rw [steps_succ_of_next _ (step_of_ingest_of_no_whole_byte hcap hh (by omega) hin)]
    refine (ih (s := { s with q := s.q ++ [a], inputs := _ }) hcap hh hr ?_ rfl).trans ?_
    · rw [List.length_append, List.length_singleton]
      omega
    · simp [State.nextAnswer]

/-- Settles O36: from an empty queue, the byte is that of the eight bits, and the answer 1 leaves the flag set. -/
theorem eightBitsWhileReadingEmitTheirByte : Obligations.EightBitsWhileReadingEmitTheirByte := by
  intro b1 b2 b3 b4 b5 b6 b7 b8 s ps hcap hh hr hq ha hin
  refine ⟨pack [b1, b2, b3, b4, b5, b6, b7, b8], packIsTheWeightedSum .., ?_⟩
  have run := steps_of_ingests_completing_byte (bs := [b1, b2, b3, b4, b5, b6, b7]) (b := b8) (ps := ps) hcap hh hr
    (by simp [hq]) hin
  simpa [hq, ha, hr] using run

/-! ### The control states (R100, R101) -/

/-- R101: a command leads to Draining when it is one that drains and leaves the block not Idle. -/
theorem State.phaseAfter_eq_draining_iff {i : Instr} {s : State} :
    s.phaseAfter i = .draining ↔
      s.halted = false ∧ Instr.entersDrain i = true ∧ (s.commandEdge i).reading = true ∧
        8 ≤ (s.commandEdge i).q.length := by
  simp [State.phaseAfter, State.idle, and_assoc]

/-- R171: while `halted = 0`, the clock that takes INGEST offers the bit. -/
theorem State.commandEdge_ingest {s : State} (h : s.halted = false) (b : Bit) :
    s.commandEdge (.ingest b) = s.offer b := by
  simp [State.commandEdge, h]

/-- R171: while `halted = 0`, the clock that takes REQMORE writes the flag. -/
theorem State.commandEdge_reqmore {s : State} (h : s.halted = false) : s.commandEdge .reqmore = s.startReading := by
  simp [State.commandEdge, h]

/-- R101: a clock of a drain leads back to Idle on a pause, or with fewer than 8 bits left of the queue. -/
theorem State.drainClock_phase_eq_idle_iff {s : State} :
    s.drainClock.phase = .idle ↔ s.nextAnswer = false ∨ s.q.length < 16 := by
  cases ha : s.nextAnswer
  · simp [State.drainClock, ha]
  · have left : s.q.length - 8 < 8 ↔ s.q.length < 16 := by omega
    simp [State.drainClock, ha, left]

/-- Settles O40: command by command; only INGEST and REQMORE enter a drain. -/
theorem controlStateTransitions : Obligations.ControlStateTransitions := by
  refine ⟨fun i s => ?_, fun s => State.drainClock_phase_eq_idle_iff⟩
  rw [State.phaseAfter_eq_draining_iff]
  refine and_congr_right fun hh => ?_
  cases i with
  | nop | term => simp [Instr.entersDrain]
  | ingest b => simp [Instr.entersDrain, State.commandEdge_ingest hh, State.offer_q]
  | reqmore => simp [Instr.entersDrain, State.commandEdge_reqmore hh]

end Sys2Proof.Machine
end

section
/-! SUPPORT. Proofs of the statements about 42_terminate.md: TERM, and the block while halted. -/

namespace Sys2Proof.Machine

/-! ### A transaction while halted (R121) -/

/-- R66, R144: a reserved word presented with no reset is refused, halted or not. -/
theorem step_of_reserved {s : State} {w : Cmd} (hc : s.CapacityKept) (hr : s.port.rst = false)
    (hv : s.port.cmdValid = true) (hd : decode s.port.cmd = .error (.reservedCommand w)) :
    step s = .refused (.reservedCommand w) := by
  rcases s.fetch_cases with ⟨hover, -⟩ | ⟨-, hr', -⟩ | ⟨-, -, hv', -⟩ | ⟨-, -, -, i, hd', -⟩ | ⟨-, -, -, v, hd', hf⟩
  · exact absurd hc (Nat.not_le.mpr hover)
  · simp [hr] at hr'
  · simp [hv] at hv'
  · cases hd.symm.trans hd'
  · cases hd.symm.trans hd'
    rw [step, hf]

/-- R121: while halted, a transaction with no reset only moves the pins on. -/
theorem step_of_halted {s t : State} (hh : s.halted = true) (hr : s.port.rst = false) (h : step s = .next t) :
    t = s.advance := by
  rcases step_cases h with ⟨hr', -⟩ | ⟨-, -, ht⟩ | ⟨-, -, i, -, he⟩
  · simp [hr] at hr'
  · exact ht
  · rw [exec_of_halted (s := s.advance) hh] at he
    injection he with he
    exact he.symm

/-- Settles O20: without reset the pins alone move on, so `halted` stays. -/
theorem haltedAbsorbsEveryCommand : Obligations.HaltedAbsorbsEveryCommand := by
  intro s hh
  refine ⟨exec_of_halted hh, fun r => step_of_reserved, fun t hstep hcleared => ?_⟩
  by_contra hr
  have stays : t = s.advance := step_of_halted hh (Bool.eq_false_iff.mpr hr) hstep
  simp [stays, hh] at hcleared

/-! ### TERM (R120) -/

/-- Settles O19: `State.terminate` is the whole effect while running; a second TERM is absorbed. -/
theorem termDiscardsAllPendingState : Obligations.TermDiscardsAllPendingState :=
  fun _ => ⟨fun running => exec_of_running running .term, fun halted => exec_of_halted halted .term⟩

end Sys2Proof.Machine
end

section
/-! SUPPORT. Proofs of the statements about 60_exceptions.md: legal commands, the capacity fault, and reserved words. -/

namespace Sys2Proof.Machine

/-! ### Stopped runs (R143, R144) -/

/-- R143: a fault ends the run, however many transactions are asked. -/
theorem steps_succ_of_fault {s : State} {f : Fault} (k : Nat) (h : step s = .fault f) : steps (k + 1) s = .fault f := by
  simp [steps, h]

/-- R144: a refusal ends the run, however many transactions are asked. -/
theorem steps_succ_of_refused {s : State} {r : Refusal} (k : Nat) (h : step s = .refused r) :
    steps (k + 1) s = .refused r := by
  simp [steps, h]

/-! ### Transactions within the capacity (R81, R142) -/

/-- R81: a transaction that answers a next state leaves it within the capacity. -/
theorem step_capacityKept {s t : State} (hc : s.CapacityKept) (h : step s = .next t) : t.CapacityKept := by
  rcases step_cases h with ⟨-, rfl⟩ | ⟨-, -, rfl⟩ | ⟨-, -, i, -, he⟩
  · exact Nat.zero_le _
  · exact hc
  · exact exec_capacityKept (s := s.advance) hc he

/-- R142, R167: within the capacity, only a reserved word on the pins keeps a transaction from answering a next state. -/
theorem step_next_or_refused {s : State} (hc : s.CapacityKept) :
    (∃ t, step s = .next t) ∨ (s.port.legal = false ∧ ∃ r, step s = .refused r) := by
  rcases s.fetch_cases with
    ⟨hover, -⟩ | ⟨-, -, hf⟩ | ⟨-, hr, hv, -⟩ | ⟨-, hr, hv, i, hd, -⟩ | ⟨-, hr, hv, w, hd, -⟩
  · exact absurd hc (Nat.not_le.mpr hover)
  · exact .inl ⟨s.advance.resetEvent, by rw [step, hf]⟩
  · exact .inl ⟨s.advance, step_of_nothing_presented hc hr hv⟩
  · obtain ⟨t, ht⟩ := exec_next i s.advance
    exact .inl ⟨t, (stepRunsTheDecodedCommand s i hc hr hv hd).trans ht⟩
  · exact .inr ⟨by simp [PortIn.legal, hr, hv, hd], _, step_of_reserved hc hr hv hd⟩

/-! ### Runs of legal inputs (R142, R167) -/

/-- The pins of the first transaction of a run are legal when the run's inputs are, or there is no input and they show
nothing. -/
theorem State.port_legal_of_forall_take {s : State} {k : Nat} (h : ∀ p ∈ s.inputs.take (k + 1), p.legal = true) :
    s.port.legal = true := by
  cases hin : s.inputs with
  | nil => simp [State.port, hin, PortIn.legal, PortIn.nothing]
  | cons p ps => simpa [State.port, hin] using h p (by simp [hin])

/-- R142, R167: within the capacity, a transaction with legal pins answers a next state within the capacity. -/
theorem step_of_legal {s : State} (hc : s.CapacityKept) (hl : s.port.legal = true) :
    ∃ t, step s = .next t ∧ t.CapacityKept := by
  rcases step_next_or_refused hc with ⟨t, ht⟩ | ⟨illegal, -⟩
  · exact ⟨t, ht, step_capacityKept hc ht⟩
  · simp [hl] at illegal

/-- Settles O26: `step_of_legal` for the first transaction, whose answer meets the premises of the rest of the run. -/
theorem legalInputsNeverStopTheMachine : Obligations.LegalInputsNeverStopTheMachine := by
  intro k
  induction k with
  | zero => exact fun s hc _ => ⟨s, rfl, hc, rfl⟩
  | succ k ih =>
    intro s hc hlegal
    obtain ⟨u, hstep, hcu⟩ := step_of_legal hc (State.port_legal_of_forall_take hlegal)
    have rest : u.inputs.take k = (s.inputs.take (k + 1)).tail := by
      rw [step_inputs hstep, List.tail_take_eq_take_tail, Nat.add_sub_cancel]
    have later : ∀ p ∈ u.inputs.take k, p.legal = true := fun p hmem =>
      hlegal p (List.mem_of_mem_tail (rest ▸ hmem))
    obtain ⟨t, hrest, hct, inputs⟩ := ih u hcu later
    refine ⟨t, (steps_succ_of_next k hstep).trans hrest, hct, ?_⟩
    rw [inputs, step_inputs hstep, List.drop_tail]

/-! ### The capacity fault (R143) -/

/-- Settles O9: past the capacity the first transaction faults; within it, a transaction answers a next state or is
refused. -/
theorem overfullQueueFaultsForGood : Obligations.OverfullQueueFaultsForGood := by
  refine ⟨fun s hover k => steps_succ_of_fault k (step_of_over_capacity (Nat.not_le.mpr hover)), fun s hc => ⟨?_, ?_⟩⟩
  · rcases step_next_or_refused hc with ⟨t, ht⟩ | ⟨-, r, hr⟩
    · simp [ht]
    · simp [hr]
  · exact fun t => step_capacityKept hc

/-! ### Reserved words (R66, R144) -/

/-- R66: the three reserved words decode to their own rejection. -/
theorem decode_of_reserved {w : Cmd} (h : w = 0b001#3 ∨ w = 0b101#3 ∨ w = 0b111#3) :
    decode w = .error (.reservedCommand w) := by
  rcases h with rfl | rfl | rfl <;> rfl

/-- Settles O4: the first transaction is refused (`step_of_reserved`), so the run is. -/
theorem reservedWordIsRefusedForGood : Obligations.ReservedWordIsRefusedForGood := by
  intro s hc hr hv hw
  have refused : step s = .refused (.reservedCommand s.port.cmd) := step_of_reserved hc hr hv (decode_of_reserved hw)
  exact ⟨refused, fun k => steps_succ_of_refused k refused⟩

end Sys2Proof.Machine
end

section
/-! SUPPORT. Proofs of the statements about 70_reset_and_hazards.md: the clocks of a whole command, the block after TERM, and
reset. -/

namespace Sys2Proof.Machine

/-! ### The clocks of a whole drain (R165, R171) -/

/-- R94, R171: all one clock of a drain can do with a whole byte queued: send the last byte of the drain and go back to
Idle, or send one byte and leave the rest of the drain to do. -/
theorem State.drainClock_cases {s : State} (h : 8 ≤ s.q.length) :
    (s.drainClock = { block := s.drain, phase := .idle } ∧ s.drain.emitted.length = s.emitted.length + 1) ∨
    (s.drainClock = { block := s.drainPass.2, phase := .draining } ∧ s.drain = s.drainPass.2.drain ∧
      8 ≤ s.drainPass.2.q.length) := by
  cases ha : s.nextAnswer with
  | false =>
    have drained : s.drain = { s.drainPass.2 with reading := false } := by simp [State.drain_of_whole_byte h, ha]
    exact .inl ⟨by simp [State.drainClock, ha, drained], by simp [drained]⟩
  | true =>
    have drained : s.drain = s.drainPass.2.drain := by simp [State.drain_of_whole_byte h, ha]
    by_cases more : 16 ≤ s.q.length
    · exact .inr ⟨State.drainClock_of_accepted ha more, drained, by simp; omega⟩
    · have short : s.drainPass.2.q.length < 8 := by simp; omega
      rw [State.drain_of_short short] at drained
      exact .inl ⟨by simp only [State.drainClock, State.drainPass_answer, ha, short, drained, if_true],
        by simp [drained]⟩

/-- R94: with a whole byte queued, DRAIN sends at least one. -/
theorem State.emitted_length_lt_drain {s : State} (h : 8 ≤ s.q.length) :
    s.emitted.length < s.drain.emitted.length := by
  rcases State.drainClock_cases h with ⟨-, sent⟩ | ⟨-, rest, -⟩
  · omega
  · have sent := s.drainPass.2.emitted_prefix_drain_emitted.length_le
    rw [← rest, State.drainPass_emitted, List.length_append, List.length_singleton] at sent
    omega

/-- R165, R171: with one clock for each byte DRAIN sends, whatever the pins show but reset, the clocks of a drain do all of
DRAIN and end in Idle. -/
theorem Cycle.clocks_of_drain {pins : List PortIn} {s : State} (hc : s.CapacityKept) (hq : 8 ≤ s.q.length)
    (hp : ∀ p ∈ pins, p.rst = false) (hlen : pins.length + s.emitted.length = s.drain.emitted.length) :
    Cycle.clocks pins { block := s, phase := .draining } = .next { block := s.drain, phase := .idle } := by
  induction pins generalizing s with
  | nil =>
    have sent := State.emitted_length_lt_drain hq
    rw [List.length_nil] at hlen
    omega
  | cons p ps ih =>
    rw [Cycle.clocks_cons_of_next _ (Cycle.clock_of_draining hc (hp p (by simp)))]
    rw [List.length_cons] at hlen
    rcases State.drainClock_cases hq with ⟨last, sent⟩ | ⟨goesOn, rest, wholeLeft⟩
    · obtain rfl : ps = [] := List.length_eq_zero_iff.mp (by omega)
      rw [last, Cycle.clocks]
    · rw [goesOn, rest]
      refine ih (State.drainPass_capacityKept hc) wholeLeft (fun r hr => hp r (by simp [hr])) ?_
      rw [← rest, State.drainPass_emitted, List.length_append, List.length_singleton]
      omega

/-- Settles O41: the first clock does all of a command that does not drain; for one that does it leaves DRAIN, which the
other clocks do (`Cycle.clocks_of_drain`). -/
theorem cycleLevelRefinesTheTransaction : Obligations.CycleLevelRefinesTheTransaction := by
  intro i s t pins hc h hp hlen
  rw [Cycle.clocks_cons_of_next _ (Cycle.clock_of_presented hc i)]
  cases hph : s.phaseAfter i with
  | idle =>
    cases h.symm.trans (exec_of_phaseAfter_idle hph)
    obtain rfl : pins = [] := by simpa using hlen
    rfl
  | draining =>
    obtain ⟨drains, -, whole⟩ := exec_of_phaseAfter_draining hph
    cases h.symm.trans drains
    exact Cycle.clocks_of_drain (State.commandEdge_capacityKept hc i) whole hp (by simpa using hlen)

/-! ### The block after TERM (R170) -/

/-- R21: the pins of the first transaction of a run show the first of its inputs, or nothing. -/
theorem State.port_of_forall_take {P : PortIn → Prop} {s : State} {k : Nat} (nothing : P PortIn.nothing)
    (h : ∀ p ∈ s.inputs.take (k + 1), P p) : P s.port := by
  cases hin : s.inputs with
  | nil => simpa [State.port, hin] using nothing
  | cons p ps => simpa [State.port, hin] using h p (by simp [hin])

/-- Settles O21: while halted and with no reset, each transaction only moves the pins on (`step_of_halted`). -/
theorem termIsFinalUntilReset : Obligations.TermIsFinalUntilReset := by
  intro k
  induction k with
  | zero =>
    intro s t _ _ h
    cases h
    rfl
  | succ k ih =>
    intro s t hh hp h
    obtain ⟨u, hstep, hrest⟩ := steps_succ_next h
    have noReset : s.port.rst = false := State.port_of_forall_take (P := (·.rst = false)) rfl hp
    obtain rfl : u = s.advance := step_of_halted hh noReset hstep
    have later : ∀ p ∈ s.advance.inputs.take k, p.rst = false := fun p hmem => by
      rw [State.advance_inputs, ← List.drop_one, List.take_drop, Nat.add_comm] at hmem
      exact hp p (List.mem_of_mem_drop hmem)
    rw [ih s.advance t hh later hrest, State.advance_inputs, List.drop_tail]
    rfl

/-! ### Reset (R160, R161) -/

/-- R160, R161: reset wins over whatever else is on the pins. -/
theorem step_of_reset {s : State} (hc : s.CapacityKept) (hr : s.port.rst = true) :
    step s = .next s.advance.resetEvent := by
  rcases s.fetch_cases with ⟨hover, -⟩ | ⟨-, -, hf⟩ | ⟨-, hr', -⟩ | ⟨-, hr', -⟩ | ⟨-, hr', -⟩
  · exact absurd hc (Nat.not_le.mpr hover)
  · rw [step, hf]
  all_goals simp [hr] at hr'

/-- Settles O7: the reset event writes `q`, `reading` and `halted`, and the pins move on. -/
theorem resetEventWinsAndClearsTheBlock : Obligations.ResetEventWinsAndClearsTheBlock :=
  fun _ => step_of_reset

/-- R161: reset sampled in a drain discards all but the byte on the port in that clock. -/
theorem Cycle.clock_of_reset_draining {p : PortIn} {c : Cycle} (hc : c.block.CapacityKept) (hph : c.phase = .draining)
    (hp : p.rst = true) : c.clock p = .next { block := c.block.drainPass.2.resetEvent, phase := .idle } := by
  have hc' : c.block.withinCapacity = true := decide_eq_true hc
  simp [Cycle.clock, hc', hph, hp]

/-- Settles O43: the block is the one reset after one pass, whose byte is the one on the port. -/
theorem cycleLevelResetCutsTheDrainOff : Obligations.CycleLevelResetCutsTheDrainOff :=
  fun _ _ hc hph hp => ⟨_, Cycle.clock_of_reset_draining hc hph hp, rfl, rfl, rfl, rfl, rfl, rfl⟩

end Sys2Proof.Machine
end
